-- ==== Sys2Proof/Word.lean ====
section
/-! DEFINITION. The two sizes of value this machine has: the byte of memory and the word of a register.
Both are unsigned (spec/00_scope.md R8). -/

namespace Sys2Proof

/-- A byte of memory, an opcode byte or an operand byte: an unsigned integer in 0..255 (00_scope.md R8). -/
abbrev Byte := BitVec 8

/-- The value of a general register and of every ALU result: `XLEN = 8` bits, unsigned
(00_scope.md R6, 10_state.md R20; the spec's decision D1; DESIGN CHOICE, notes/assumptions/4.md). -/
abbrev Word := BitVec 8

end Sys2Proof
end

