-- ==== Sys2Proof/Config.lean ====
section
/-! DEFINITION. The parameters of the block (spec/00_scope.md R6), each at the value the spec gives as its default.
The machine has no free value: the spec leaves no result of an instruction open. -/

namespace Sys2Proof.Config

/-- `NREGS`: the number of general registers (00_scope.md R6, 10_state.md R20). -/
abbrev nregs : Nat := 8

/-- `MEM_SIZE`: the number of byte cells of memory (00_scope.md R6; the spec's decision D2; DESIGN CHOICE, notes/assumptions/5.md). -/
abbrev memSize : Nat := 256

/-- `SP_INDEX`: the register software reserves as a stack pointer by convention. No rule of the hardware reads it
(00_scope.md R6, 10_state.md R23), and no definition of this model does. -/
abbrev spIndex : Nat := 7

/-- `FL_E`: the flag register after "equal", bit 0 set (00_scope.md R6, 10_state.md R27). -/
abbrev flE : BitVec 3 := 0b001#3

/-- `FL_G`: the flag register after "greater-than", bit 1 set (00_scope.md R6, 10_state.md R27). -/
abbrev flG : BitVec 3 := 0b010#3

/-- `FL_L`: the flag register after "less-than", bit 2 set (00_scope.md R6, 10_state.md R27). -/
abbrev flL : BitVec 3 := 0b100#3

/-! ### Opcode bytes

The defaults of the parameters `OPC_*` (30_encoding.md R68; the spec's decision D3, from general knowledge;
PRESUMED, notes/assumptions/3.md). -/

/-- `OPC_LDI`. -/
abbrev opcLdi : Byte := 0b10000010#8
/-- `OPC_PRN`. -/
abbrev opcPrn : Byte := 0b01000111#8
/-- `OPC_ADD`. -/
abbrev opcAdd : Byte := 0b10100000#8
/-- `OPC_MUL`. -/
abbrev opcMul : Byte := 0b10100010#8
/-- `OPC_CMP`. -/
abbrev opcCmp : Byte := 0b10100111#8
/-- `OPC_JMP`. -/
abbrev opcJmp : Byte := 0b01010100#8
/-- `OPC_JEQ`. -/
abbrev opcJeq : Byte := 0b01010101#8
/-- `OPC_JNE`. -/
abbrev opcJne : Byte := 0b01010110#8
/-- `OPC_HLT`. -/
abbrev opcHlt : Byte := 0b00000001#8
/-- `OPC_PUSH`, reserved (30_encoding.md R72). -/
abbrev opcPush : Byte := 0b01000101#8
/-- `OPC_POP`, reserved. -/
abbrev opcPop : Byte := 0b01000110#8
/-- `OPC_CALL`, reserved. -/
abbrev opcCall : Byte := 0b01010000#8
/-- `OPC_RET`, reserved. -/
abbrev opcRet : Byte := 0b00010001#8

/-- The nine implemented opcode values (30_encoding.md R68, R73). -/
def implementedOpcodes : List Byte :=
  [opcLdi, opcPrn, opcAdd, opcMul, opcCmp, opcJmp, opcJeq, opcJne, opcHlt]

/-- The four values that are named but reserved (30_encoding.md R72). -/
def reservedOpcodes : List Byte :=
  [opcPush, opcPop, opcCall, opcRet]

/-! ### Reset values (10_state.md R35) -/

/-- `REG_RESET`: every general register after reset (the spec's decision D12; DESIGN CHOICE, notes/assumptions/6.md). -/
abbrev regReset : Word := 0#8

/-- `FL_RESET`: no flag bit set (the spec's decision D12; DESIGN CHOICE, notes/assumptions/6.md). -/
abbrev flReset : BitVec 3 := 0b000#3

/-- The entry point: execution begins at address 0 (70_reset_and_hazards.md R181). -/
abbrev pcReset : Nat := 0

/-- What a memory cell that nothing has written holds: memory is zero-initialized (10_state.md R30, R35). -/
abbrev memReset : Byte := 0#8

end Sys2Proof.Config
end

