-- ==== Sys2Proof/Syntax.lean ====
section
/-! DEFINITION. The instructions, one constructor per row of spec/opcode_table.json. -/

namespace Sys2Proof

/-- An instruction as the loop sees it after decode: the operands are the operand bytes the common part of the step has
fetched (40_fetch_decode_execute_loop.md R80). A register operand is the WHOLE byte, 0..255, not its low three bits
(10_state.md R22, 30_encoding.md R66). The reserved and unknown rows carry no operand: none is fetched for them
(44_halt_and_reserved.md R142, R144; DESIGN CHOICE, notes/assumptions/8.md). -/
inductive Instr where
  /-- `LDI Ra,imm`: register, immediate (41_load_immediate_and_print.md R100). -/
  | ldi (a imm : Byte)
  /-- `PRN Ra` (41_load_immediate_and_print.md R101). -/
  | prn (a : Byte)
  /-- `ADD Ra,Rb` (42_alu.md R110). -/
  | add (a b : Byte)
  /-- `MUL Ra,Rb` (42_alu.md R111). -/
  | mul (a b : Byte)
  /-- `CMP Ra,Rb` (42_alu.md R112). -/
  | cmp (a b : Byte)
  /-- `JMP Ra` (43_control_transfer.md R130). -/
  | jmp (a : Byte)
  /-- `JEQ Ra` (43_control_transfer.md R131). -/
  | jeq (a : Byte)
  /-- `JNE Ra` (43_control_transfer.md R132). -/
  | jne (a : Byte)
  /-- `HLT` (44_halt_and_reserved.md R140). -/
  | hlt
  /-- PUSH, reserved (44_halt_and_reserved.md R142, R146). -/
  | push
  /-- POP, reserved (44_halt_and_reserved.md R142, R147). -/
  | pop
  /-- CALL, reserved (44_halt_and_reserved.md R142, R148). -/
  | call
  /-- RET, reserved (44_halt_and_reserved.md R142, R149). -/
  | ret
  /-- Every opcode byte that has no name (44_halt_and_reserved.md R144): the table's row `(unknown)`. -/
  | unknown (op : Byte)
  deriving DecidableEq, Repr

end Sys2Proof
end

