-- ==== Sys2Proof/WellFormed.lean ====
section
/-! DEFINITION. Which terms of `Instr` stand for bytes a program can hold. -/

namespace Sys2Proof

/-- Whether a byte is one of the thirteen named opcode values (30_encoding.md R68). -/
def namedOpcode (op : Byte) : Bool :=
  (Config.implementedOpcodes ++ Config.reservedOpcodes).contains op

/-- The one check on an instruction: the row `(unknown)` stands only for bytes without a name, since a named byte decodes
to its own row. Operand bytes have no illegal values (30_encoding.md R73): a register operand 8..255 is a run-time fault
of the instruction, not an ill-formed instruction. -/
def Instr.wellFormed : Instr → Bool
  | .unknown op => !namedOpcode op
  | .ldi _ _ | .prn _ | .add _ _ | .mul _ _ | .cmp _ _ | .jmp _ | .jeq _ | .jne _ => true
  | .hlt | .push | .pop | .call | .ret => true

end Sys2Proof
end

