-- ==== Sys2Proof/Decode.lean ====
section
/-! DEFINITION. The decoder, written once over any way of reading a byte, and the encoder
(spec/30_encoding.md R60 to R73, spec/40_fetch_decode_execute_loop.md R80 actions 1 to 3). -/

namespace Sys2Proof

/-- A format with the handler its operand bytes are handed to (30_encoding.md R61 to R64). -/
inductive OpForm where
  /-- `OP0`: the opcode and nothing else (R61). -/
  | op0 (instr : Instr)
  /-- `OP1R`: one register operand (R62). -/
  | op1R (instr : Byte → Instr)
  /-- `OP2RR`: two register operands (R63). -/
  | op2RR (instr : Byte → Byte → Instr)
  /-- `OP2RI`: a register operand and an immediate (R64). -/
  | op2RI (instr : Byte → Byte → Instr)

/-- The number of operand bytes of a format: 0, 1 or 2 (30_encoding.md R60). -/
def operandsOfForm : OpForm → Nat
  | .op0 _ => 0
  | .op1R _ => 1
  | .op2RR _ | .op2RI _ => 2

/-- `OPTABLE`: the nine implemented rows, byte value to format and handler (30_encoding.md R68, 10_state.md R34,
40_fetch_decode_execute_loop.md R80 and R84). -/
def opTable : List (Byte × OpForm) :=
  [(Config.opcLdi, .op2RI .ldi), (Config.opcPrn, .op1R .prn),
   (Config.opcAdd, .op2RR .add), (Config.opcMul, .op2RR .mul), (Config.opcCmp, .op2RR .cmp),
   (Config.opcJmp, .op1R .jmp), (Config.opcJeq, .op1R .jeq), (Config.opcJne, .op1R .jne),
   (Config.opcHlt, .op0 .hlt)]

/-- The four reserved names and their byte values (30_encoding.md R72). They are not entries of `opTable`
(90_conflicts.md C10). -/
def reservedTable : List (Byte × Instr) :=
  [(Config.opcPush, .push), (Config.opcPop, .pop), (Config.opcCall, .call), (Config.opcRet, .ret)]

/-- The entry of the first row of a table that carries this byte. -/
def findRow {α : Type} (op : Byte) : List (Byte × α) → Option α
  | [] => none
  | (c, entry) :: rest => if op = c then some entry else findRow op rest

/-- Table lookup of a whole opcode byte (mask 0xFF; 30_encoding.md R68, R70). -/
def lookupOpcode (op : Byte) : Option OpForm :=
  findRow op opTable

/-- The instruction of a byte that is not in `opTable`: the reserved name it has, else the row `(unknown)`. No operand is
decoded, whatever the byte's two top bits say (44_halt_and_reserved.md R142, R144; 30_encoding.md R70). -/
def undecodedByte (op : Byte) : Instr :=
  match findRow op reservedTable with
  | some i => i
  | none => .unknown op

/-- Fetch and decode over any reader of the byte at an offset from the instruction's first byte, in the normative order:
the opcode; the table lookup; then the operand bytes the row demands, lowest first
(40_fetch_decode_execute_loop.md R80; the spec's decision D9). -/
def decodeWith {ε : Type} (read : Nat → Except ε Byte) : Except ε Instr :=
  match read 0 with
  | .error e => .error e
  | .ok op =>
    match lookupOpcode op with
    | none => .ok (undecodedByte op)
    | some (.op0 i) => .ok i
    | some (.op1R f) =>
      match read 1 with
      | .error e => .error e
      | .ok a => .ok (f a)
    | some (.op2RR f) | some (.op2RI f) =>
      match read 1 with
      | .error e => .error e
      | .ok a =>
        match read 2 with
        | .error e => .error e
        | .ok b => .ok (f a b)

/-- How many bytes the fetch of an instruction reads, which is how far it advances `pc` where it advances it: 1 plus the
operand count (30_encoding.md R60, R71). For a reserved or unknown byte only the opcode is read. -/
def Instr.size : Instr → Nat
  | .ldi _ _ | .add _ _ | .mul _ _ | .cmp _ _ => 3
  | .prn _ | .jmp _ | .jeq _ | .jne _ => 2
  | .hlt | .push | .pop | .call | .ret | .unknown _ => 1

/-- Why a list of bytes is not an instruction. -/
inductive DecodeError where
  /-- The byte at this offset is needed and the list ends before it. -/
  | missingByte (offset : Nat)
  deriving DecidableEq, Repr

/-- The byte at an offset of a list of bytes. -/
def byteAt (bytes : List Byte) (offset : Nat) : Except DecodeError Byte :=
  match bytes[offset]? with
  | some b => .ok b
  | none => .error (.missingByte offset)

/-- The decoder on a list of bytes: the first instruction and the bytes after it. It is total; a list that ends inside an
instruction is rejected by the name of the missing byte. -/
def decode (bytes : List Byte) : Except DecodeError (Instr × List Byte) :=
  match decodeWith (byteAt bytes) with
  | .ok i => .ok (i, bytes.drop i.size)
  | .error e => .error e

/-- The opcode byte of an instruction (30_encoding.md R68). -/
def Instr.opcode : Instr → Byte
  | .ldi _ _ => Config.opcLdi
  | .prn _ => Config.opcPrn
  | .add _ _ => Config.opcAdd
  | .mul _ _ => Config.opcMul
  | .cmp _ _ => Config.opcCmp
  | .jmp _ => Config.opcJmp
  | .jeq _ => Config.opcJeq
  | .jne _ => Config.opcJne
  | .hlt => Config.opcHlt
  | .push => Config.opcPush
  | .pop => Config.opcPop
  | .call => Config.opcCall
  | .ret => Config.opcRet
  | .unknown op => op

/-- The operand bytes of an instruction, in the order they lie in memory (30_encoding.md R65, R75). -/
def Instr.operands : Instr → List Byte
  | .ldi a imm => [a, imm]
  | .add a b | .mul a b | .cmp a b => [a, b]
  | .prn a | .jmp a | .jeq a | .jne a => [a]
  | .hlt | .push | .pop | .call | .ret | .unknown _ => []

/-- The bytes of an instruction at ascending addresses: the opcode, then the operands (20_memory.md R44). A reserved name
is its opcode byte alone: the operand of its nominal format is never fetched (44_halt_and_reserved.md R142). -/
def encode (i : Instr) : List Byte :=
  i.opcode :: i.operands

/-- The bytes of a word numbered as spec/opcode_table.json numbers its bits: bit 0 is the least significant bit of the first
byte, a later byte's bits count on; the bits above `nbits` are 0. Three bytes, the longest instruction. -/
def tableBytes (nbits w : Nat) : List Byte :=
  let v := w % 2 ^ nbits
  [BitVec.ofNat 8 v, BitVec.ofNat 8 (v / 256), BitVec.ofNat 8 (v / 65536)]

/-- The instruction the decoder reads from a word of the opcode table. -/
def decodeTableWord (nbits w : Nat) : Option Instr :=
  match decode (tableBytes nbits w) with
  | .ok (i, _) => some i
  | .error _ => none

end Sys2Proof
end

