-- ==== Sys2Proof/Machine/State.lean ====
section
/-! DEFINITION. The state of the block as plain data, its value after reset, and why a step can stop.
The whole state is the tuple of spec/10_state.md: registers, flag, program counter, run state, memory, output. -/

namespace Sys2Proof.Machine

/-- What was out of range: a memory address or a register index (60_exceptions.md R150, R151, R152). The value carried is
the one the failing contract call was given (the spec's decision D23). -/
inductive Location where
  /-- The address of the byte that could not be read or written (R151). -/
  | memory (addr : Nat)
  /-- The operand byte that names no register; the source's `InvalidRegister` (R152). -/
  | register (idx : Byte)
  deriving DecidableEq, Repr

/-- The closed list of fault reasons, the `reason` of `Faulted(reason)` (60_exceptions.md R150). -/
inductive Reason where
  /-- `OutOfBounds(Memory, addr)` and `OutOfBounds(Register, idx)` (R151, R152). -/
  | outOfBounds (loc : Location)
  /-- `UnknownInstruction(op)`: the opcode byte that is not implemented (R153). -/
  | unknownInstruction (op : Byte)
  /-- `UnsupportedOperation`: the ALU was given another operation name. No step produces it (R154; the
  spec's decision D18). -/
  | unsupportedOperation
  deriving DecidableEq, Repr

/-- The run state of the execution engine (10_state.md R29). -/
inductive RunState where
  /-- The loop takes steps. -/
  | running
  /-- Ended by HLT; terminal. -/
  | halted
  /-- Ended by a fault; terminal. -/
  | faulted (reason : Reason)
  deriving DecidableEq, Repr

/-- The memory array: (address, byte) pairs in one canonical form, addresses strictly rising, no entry that holds the value
an unlisted cell reads as (20_memory.md R47; the form is DESIGN CHOICE, notes/assumptions/7.md). -/
abbrev Memory := List Host.Cell

/-- The whole state of the block, `(x[0..7], fl, pc, run, mem, out)` (10_state.md R20 to R33). -/
structure State where
  /-- `x[0]` to `x[7]` (10_state.md R20). -/
  regs : Vector Word Config.nregs
  /-- `fl`: bit 0 E, bit 1 G, bit 2 L (10_state.md R27; the spec's decision D13). -/
  fl : BitVec 3
  /-- `pc`: a natural number that is never reduced (10_state.md R24, R25; the spec's decision D6; notes/assumptions/5.md). -/
  pc : Nat
  /-- `run` (10_state.md R29). -/
  run : RunState
  /-- `mem` (10_state.md R30). -/
  mem : Memory
  /-- `out`: the values PRN has emitted, in execution order (10_state.md R31; the spec's decision D17). -/
  out : List Word
  deriving DecidableEq, Repr

/-- The state right after reset, before anything is loaded (10_state.md R35, 70_reset_and_hazards.md R180). -/
def State.reset : State where
  regs := Vector.replicate Config.nregs Config.regReset
  fl := Config.flReset
  pc := Config.pcReset
  run := .running
  mem := []
  out := []

/-- Why there is no next state. A fault of the machine is NOT one of these: it is the next state in which `run` is
`Faulted(reason)` (60_exceptions.md R162). -/
inductive Fault where
  /-- Raised by `step` in a state whose `run` is `Halted`: no step exists there (40_fetch_decode_execute_loop.md R87;
  notes/assumptions/1.md). Safe: the model stops where the hardware has stopped. -/
  | halted
  /-- Raised by `step` in a state whose `run` is `Faulted(reason)`: no step exists there (40_fetch_decode_execute_loop.md
  R87; notes/assumptions/1.md). Safe: the model stops where the hardware has stopped. -/
  | faulted (reason : Reason)
  deriving DecidableEq, Repr

/-- Why an instruction has no meaning in the model. -/
inductive Refusal where
  /-- Raised by an arm of `exec` whose instruction is not modelled yet; no arm is left that raises it. Safe: nothing can be
  proved about a step that answers it. -/
  | notModelled (mnemonic : String)
  deriving DecidableEq, Repr

end Sys2Proof.Machine
end

