-- ==== Sys2Proof/Machine/Flags.lean ====
section
/-! DEFINITION. The comparison flag: what CMP computes and what the conditional jumps read
(spec/10_state.md R27, R28; spec/42_alu.md R112). -/

namespace Sys2Proof.Machine

/-- The three-way outcome of a comparison of unsigned values, tested in the source's order EQ, LT, GT
(42_alu.md R112, R114; the spec's decision D5). -/
def compareFlag (va vb : Word) : BitVec 3 :=
  if va = vb then Config.flE
  else if va.toNat < vb.toNat then Config.flL
  else Config.flG

/-- Bit 0 of `fl`, the only bit a conditional jump reads (10_state.md R28). -/
def equalBit (fl : BitVec 3) : Bool :=
  fl.getLsbD 0

end Sys2Proof.Machine
end

