-- ==== Sys2Proof/Machine/Ops.lean ====
section
/-! DEFINITION. The named operations over memory, registers, output, program counter and run state
(spec/00_scope.md R10), and taking a fault (spec/60_exceptions.md R162). -/

namespace Sys2Proof.Machine

/-- What a step or an instruction answers. -/
abbrev StepOutcome := Host.Outcome State Fault Refusal

/-! ### Memory -/

/-- The byte of the cell at an address; an unlisted cell holds the reset value 0 (10_state.md R30, R35). -/
def Memory.read (m : Memory) (addr : Nat) : Byte :=
  match m with
  | [] => Config.memReset
  | (a, b) :: rest => if a = addr then b else Memory.read rest addr

/-- List a cell in front of the cells above it, unless it holds what an unlisted cell reads as. -/
def Memory.consCell (addr : Nat) (v : Byte) (m : Memory) : Memory :=
  if v = Config.memReset then m else (addr, v) :: m

/-- Set one cell, keeping the canonical form. -/
def Memory.write (m : Memory) (addr : Nat) (v : Byte) : Memory :=
  match m with
  | [] => Memory.consCell addr v []
  | (a, b) :: rest =>
    if addr < a then Memory.consCell addr v ((a, b) :: rest)
    else if addr = a then Memory.consCell addr v rest
    else (a, b) :: Memory.write rest addr v

/-- The canonical form: addresses strictly rising, every listed cell exists and holds something else than an unlisted cell
reads as. -/
abbrev Memory.wf (m : Memory) : Prop :=
  m.Pairwise (fun c d => c.1 < d.1) ∧ ∀ c ∈ m, c.1 < Config.memSize ∧ c.2 ≠ Config.memReset

/-- `MemRead(addr, 1)`: the byte, or `OutOfBounds(Memory, addr)` (00_scope.md R10, 20_memory.md R40, R43). -/
def State.memRead (s : State) (addr : Nat) : Except Reason Byte :=
  if addr < Config.memSize then .ok (s.mem.read addr) else .error (.outOfBounds (.memory addr))

/-- `MemWrite(addr, 1, v)`: set the cell, or `OutOfBounds(Memory, addr)`. The loader's primitive: no instruction uses it
(00_scope.md R10, 20_memory.md R41). -/
def State.memWrite (s : State) (addr : Nat) (v : Byte) : Except Reason State :=
  if addr < Config.memSize then .ok { s with mem := s.mem.write addr v }
  else .error (.outOfBounds (.memory addr))

/-- Write bytes at ascending addresses, those that exist: memory with an instruction's bytes in it. -/
def Memory.place (m : Memory) (addr : Nat) (bytes : List Byte) : Memory :=
  match bytes with
  | [] => m
  | b :: rest =>
    Memory.place (if addr < Config.memSize then m.write addr b else m) (addr + 1) rest

/-! ### Registers -/

/-- `RegRead(i)`, the register file's `get`: the whole operand byte is the index, and 8..255 fail with
`OutOfBounds(Register, i)` (10_state.md R22). -/
def State.regRead (s : State) (i : Byte) : Except Reason Word :=
  if h : i.toNat < Config.nregs then .ok s.regs[i.toNat] else .error (.outOfBounds (.register i))

/-- `RegWrite(i, v)`, the register file's `set`: stores `v` unchanged, under the same check (10_state.md R22). -/
def State.regWrite (s : State) (i : Byte) (v : Word) : Except Reason State :=
  if h : i.toNat < Config.nregs then .ok { s with regs := s.regs.set i.toNat v h }
  else .error (.outOfBounds (.register i))

/-! ### Flag, output, program counter, run state -/

/-- `set_flag(bits)`: all of `fl` is overwritten, nothing is merged (10_state.md R28). -/
def State.setFlag (s : State) (bits : BitVec 3) : State :=
  { s with fl := bits }

/-- `Emit(v)`: append to the output stream; it never blocks and never fails (10_state.md R31). -/
def State.emit (s : State) (v : Word) : State :=
  { s with out := s.out ++ [v] }

/-- `pc <- target`, not reduced and not checked (10_state.md R25, 43_control_transfer.md R134). -/
def State.setPc (s : State) (target : Nat) : State :=
  { s with pc := target }

/-- `pc <- pc + n`, a plain addition that never wraps (10_state.md R25, R26). -/
def State.advance (s : State) (n : Nat) : State :=
  s.setPc (s.pc + n)

/-- `run <- Halted`; `pc` is not assigned (44_halt_and_reserved.md R140, R141; the spec's decision D7). -/
def State.halt (s : State) : State :=
  { s with run := .halted }

/-! ### Faults -/

/-- Fault entry, `raise <Reason>`: `run <- Faulted(reason)` and nothing else changes. Nothing is saved, no mode or mask
changes, control goes nowhere (60_exceptions.md R162, R163; the spec's decision D10). There is no
return from a fault (R164): only reset leaves it (`State.hostReset`). -/
def State.takeFault (s : State) (r : Reason) : State :=
  { s with run := .faulted r }

/-- How a step ends: the state its actions built or, where one of them raised, fault entry from the state the step began
in. Both are next states (40_fetch_decode_execute_loop.md R80, 60_exceptions.md R162). -/
def finish (s : State) (actions : Except Reason State) : StepOutcome :=
  match actions with
  | .ok s' => .next s'
  | .error r => .next (s.takeFault r)

end Sys2Proof.Machine
end

