-- ==== Sys2Proof/Machine/Operands.lean ====
section
/-! DEFINITION. The operand forms: immediate, pair of source registers, jump target
(spec/30_encoding.md R66, R67; spec/42_alu.md R116; spec/43_control_transfer.md R134). -/

namespace Sys2Proof.Machine

/-- LDI's second operand byte, zero-extended to the register width (30_encoding.md R67). -/
def immediate (b : Byte) : Word :=
  b.setWidth 8

/-- The two source registers of an ALU instruction: `x[a]` is asked for first, then `x[b]`, so when both indices are out of
range the fault reports `a` (42_alu.md R116; the spec's decision D9). -/
def State.sources (s : State) (a b : Byte) : Except Reason (Word × Word) :=
  match s.regRead a with
  | .error r => .error r
  | .ok va =>
    match s.regRead b with
    | .error r => .error r
    | .ok vb => .ok (va, vb)

/-- The target of a taken jump: the unsigned value of the named register as an absolute byte address, not validated
(43_control_transfer.md R130, R134). -/
def State.jumpTarget (s : State) (a : Byte) : Except Reason Nat :=
  match s.regRead a with
  | .error r => .error r
  | .ok v => .ok v.toNat

/-- "jump as JMP": `pc <- x[a]`, no advance by length (43_control_transfer.md R130). -/
def State.jump (s : State) (a : Byte) : Except Reason State :=
  match s.jumpTarget a with
  | .error r => .error r
  | .ok target => .ok (s.setPc target)

end Sys2Proof.Machine
end

