-- ==== Sys2Proof/Machine/Alu.lean ====
section
/-! DEFINITION. The ALU and its three instructions ADD, MUL, CMP (spec/42_alu.md; spec/40_fetch_decode_execute_loop.md
R89, R90). -/

namespace Sys2Proof.Machine

/-- The operation name the loop passes to the ALU. The source's contract covers any other name too (40 R89, R90). -/
inductive AluOp where
  | add
  | mul
  | cmp
  /-- "Any other operation name". -/
  | other (name : String)
  deriving DecidableEq, Repr

/-- What the ALU answers: an updated register value or an updated flag (40 R89). -/
inductive AluResult where
  | value (v : Word)
  | flag (bits : BitVec 3)
  deriving DecidableEq, Repr

/-- The exact sum reduced modulo `2^XLEN`, silently (42_alu.md R110, R113; the spec's decision D1;
notes/assumptions/4.md). -/
def aluSum (va vb : Word) : Word :=
  BitVec.ofNat 8 (va.toNat + vb.toNat)

/-- The exact product reduced modulo `2^XLEN`, silently (42_alu.md R111, R113; the spec's decision D1;
notes/assumptions/4.md). -/
def aluProduct (va vb : Word) : Word :=
  BitVec.ofNat 8 (va.toNat * vb.toNat)

/-- The ALU: a pure function of the operation and the two register values (42_alu.md R117). Any operation name but the
three fails with `UnsupportedOperation` (40 R90). -/
def alu (op : AluOp) (va vb : Word) : Except Reason AluResult :=
  match op with
  | .add => .ok (.value (aluSum va vb))
  | .mul => .ok (.value (aluProduct va vb))
  | .cmp => .ok (.flag (compareFlag va vb))
  | .other _ => .error .unsupportedOperation

/-- `apply(op, a, b, registers, flag)`: read the two registers, compute, write the one register `x[a]` or the flag. Every
check comes before every write (40 R84, R89; 42_alu.md R116).

Given another operation name together with a register index out of range, it reports the register: the spec's priority list
(60_exceptions.md R161) has no place for `UnsupportedOperation`, so which of the two is reported is the model's choice (DESIGN
CHOICE; notes/assumptions/12.md). No step gives it such a name. -/
def State.aluApply (s : State) (op : AluOp) (a b : Byte) : Except Reason State :=
  match s.sources a b with
  | .error r => .error r
  | .ok (va, vb) =>
    match alu op va vb with
    | .error r => .error r
    | .ok (.value v) => s.regWrite a v
    | .ok (.flag bits) => .ok (s.setFlag bits)

/-- "delegate to ALU; advance 3" (42_alu.md R110). -/
def aluInstruction (op : AluOp) (a b : Byte) (s : State) : StepOutcome :=
  finish s <|
    match s.aluApply op a b with
    | .error r => .error r
    | .ok s' => .ok (s'.advance 3)

/-- ADD (R110): `x[a] <- (x[a] + x[b]) mod 2^XLEN; pc <- pc + 3`. -/
def execAdd (a b : Byte) (s : State) : StepOutcome :=
  aluInstruction .add a b s

/-- MUL (R111): `x[a] <- (x[a] * x[b]) mod 2^XLEN; pc <- pc + 3`. -/
def execMul (a b : Byte) (s : State) : StepOutcome :=
  aluInstruction .mul a b s

/-- CMP (R112): `fl <- FL_E, FL_L or FL_G; pc <- pc + 3`. -/
def execCmp (a b : Byte) (s : State) : StepOutcome :=
  aluInstruction .cmp a b s

end Sys2Proof.Machine
end

