-- ==== Sys2Proof/Machine/Control.lean ====
section
/-! DEFINITION. JMP, JEQ, JNE (spec/43_control_transfer.md). -/

namespace Sys2Proof.Machine

/-- A conditional jump: "jump as JMP; else advance 2". When it is not taken the register file is not accessed, so no
register fault is possible (R133; the spec's decision D11). -/
def State.jumpIf (s : State) (taken : Bool) (a : Byte) : Except Reason State :=
  if taken then s.jump a else .ok (s.advance 2)

/-- JMP (R130): `pc <- x[a]`. -/
def execJmp (a : Byte) (s : State) : StepOutcome :=
  finish s (s.jump a)

/-- JEQ (R131): jump when the E bit is set. -/
def execJeq (a : Byte) (s : State) : StepOutcome :=
  finish s (s.jumpIf (equalBit s.fl) a)

/-- JNE (R132): jump when the E bit is clear. -/
def execJne (a : Byte) (s : State) : StepOutcome :=
  finish s (s.jumpIf (!equalBit s.fl) a)

end Sys2Proof.Machine
end

