-- ==== Sys2Proof/Machine/HaltReserved.lean ====
section
/-! DEFINITION. HLT, the four reserved opcodes and the unknown bytes (spec/44_halt_and_reserved.md). -/

namespace Sys2Proof.Machine

/-- HLT (R140): `run <- Halted`, `pc` not assigned. -/
def execHlt (s : State) : StepOutcome :=
  finish s (.ok s.halt)

/-- `raise UnknownInstruction(op)` at decode: nothing but `run` changes (R142, R144). -/
def raiseUnknown (op : Byte) (s : State) : StepOutcome :=
  finish s (.error (.unknownInstruction op))

/-- PUSH, reserved (R146): the spec takes option (a), it faults (the spec's decision D4). -/
def execPush (s : State) : StepOutcome :=
  raiseUnknown Config.opcPush s

/-- POP, reserved (R147). -/
def execPop (s : State) : StepOutcome :=
  raiseUnknown Config.opcPop s

/-- CALL, reserved (R148). -/
def execCall (s : State) : StepOutcome :=
  raiseUnknown Config.opcCall s

/-- RET, reserved (R149). -/
def execRet (s : State) : StepOutcome :=
  raiseUnknown Config.opcRet s

/-- Any opcode byte that is not implemented (R144). -/
def execUnknown (op : Byte) (s : State) : StepOutcome :=
  raiseUnknown op s

end Sys2Proof.Machine
end

