-- ==== Sys2Proof/Machine/LoadPrint.lean ====
section
/-! DEFINITION. LDI and PRN (spec/41_load_immediate_and_print.md). -/

namespace Sys2Proof.Machine

/-- LDI (R100): `x[a] <- imm; pc <- pc + 3`. -/
def execLdi (a imm : Byte) (s : State) : StepOutcome :=
  finish s <|
    match s.regWrite a (immediate imm) with
    | .error r => .error r
    | .ok s' => .ok (s'.advance 3)

/-- PRN (R101): `Emit(x[a]); pc <- pc + 2`. -/
def execPrn (a : Byte) (s : State) : StepOutcome :=
  finish s <|
    match s.regRead a with
    | .error r => .error r
    | .ok v => .ok ((s.emit v).advance 2)

end Sys2Proof.Machine
end

