-- ==== Sys2Proof/Machine/Cycle.lean ====
section
/-! DEFINITION. One pass of the loop (spec/40_fetch_decode_execute_loop.md R80 to R87). -/

namespace Sys2Proof.Machine

/-- Actions 1 to 3 of a step: fetch and decode from memory at `pc`, `pc + 1`, `pc + 2`, plain additions; an address that
does not exist raises `OutOfBounds(Memory, address)` (R80 to R83; 20_memory.md R42, R52). -/
def fetchInstr (s : State) : Except Reason Instr :=
  decodeWith fun offset => s.memRead (s.pc + offset)

/-- One step in a state with `run = Running`: fetch, decode, execute, or take the fault of the fetch (R80). -/
def runningStep (s : State) : StepOutcome :=
  match fetchInstr s with
  | .ok i => exec i s
  | .error r => finish s (.error r)

/-- One pass of the loop. It is defined only while `run` is `Running`; in a terminal state there is no step
(R80, R87; the spec's decision D21; notes/assumptions/1.md). -/
def loopPass (s : State) : StepOutcome :=
  match s.run with
  | .running => runningStep s
  | .halted => .fault .halted
  | .faulted r => .fault (.faulted r)

end Sys2Proof.Machine
end

