-- ==== Sys2Proof/Machine/Step.lean ====
section
/-! DEFINITION. The step function and where it fetches its next instruction (spec/40_fetch_decode_execute_loop.md R80). -/

namespace Sys2Proof.Machine

/-- One step of the machine: one pass of the loop (R80, R86). -/
def step (s : State) : Host.Outcome State Fault Refusal :=
  loopPass s

/-- `s` with the instruction of a word of the opcode table stored where `step` fetches its next instruction: at `pc` and
the addresses after it, as far as they exist. It stands for the load of a program (notes/assumptions/9.md). Nothing else changes: a state whose
run has ended stays ended. -/
def State.withFetchWord (s : State) (nbits w : Nat) : State :=
  { s with mem := s.mem.place s.pc (tableBytes nbits w) }

end Sys2Proof.Machine
end

