-- ==== Sys2Proof/Machine/Boot.lean ====
section
/-! DEFINITION. What the host does to the block, outside a run: reset, load, reading the result
(spec/70_reset_and_hazards.md R180 to R188). None of it is a step of the machine (DESIGN CHOICE,
notes/assumptions/10.md). -/

namespace Sys2Proof.Machine

/-- Reset, in any state: it keeps nothing of the previous run, and is the only way out of `Halted` and `Faulted` (R180). -/
def State.hostReset (_ : State) : State :=
  State.reset

/-- The loader from address `k` on: `MemWrite(k, 1, img[0])`, `MemWrite(k + 1, 1, img[1])`, ... (R183). A write out of bounds
is the loader's error, outside the core, and no value of `run` (60_exceptions.md R158, 20_memory.md R55;
notes/assumptions/10.md). -/
def loadFrom (k : Nat) (img : List Byte) (s : State) : Except Reason State :=
  match img with
  | [] => .ok s
  | b :: rest =>
    match s.memWrite k b with
    | .error r => .error r
    | .ok s' => loadFrom (k + 1) rest s'

/-- The launch state of a program image: reset, then the image at address 0 (R182, R184; 20_memory.md R47). -/
def launch (img : List Byte) : Except Reason State :=
  loadFrom 0 img State.reset

/-- Whether a run has ended: the first state in which `run` is not `Running` (R187). -/
def State.ended (s : State) : Bool :=
  decide (s.run ≠ .running)

/-- The observable result of a run: the final `run` and the final `out` (R187). -/
def State.observable (s : State) : RunState × List Word :=
  (s.run, s.out)

/-- The line the host writes for one value of `out`: its shortest unsigned decimal (R188; 10_state.md R31). The line
terminator is the host's (DESIGN CHOICE, notes/assumptions/11.md). -/
def renderLine (v : Word) : List Char :=
  Nat.toDigits 10 v.toNat

/-- The lines the host writes for a state's output, in order (R188). -/
def State.renderedOut (s : State) : List (List Char) :=
  s.out.map renderLine

end Sys2Proof.Machine
end

