-- ==== Sys2Proof/Safety.lean ====
section
/-! DEFINITION. The terms claims are stated in: the invariant of reachable states, and which fault the spec's matrix and
priority list give a state. `State.faultCause` is written from spec/60_exceptions.md R156 and R161 alone, in their order, and
shares nothing with the decoder or the meanings. -/

namespace Sys2Proof.Machine

/-- `fl` holds no bit or exactly one (10_state.md R27). -/
abbrev legalFlag (fl : BitVec 3) : Prop :=
  fl = 0b000#3 ∨ fl = Config.flE ∨ fl = Config.flG ∨ fl = Config.flL

/-- What every step keeps, in terms of the state (10_state.md R36): the flag is one of the four values, `pc` is in
0..MEM_SIZE, memory is in its canonical form. -/
abbrev State.inv (s : State) : Prop :=
  legalFlag s.fl ∧ s.pc ≤ Config.memSize ∧ s.mem.wf

/-- Opcodes with at least one operand byte (30_encoding.md R71). -/
def oneOperandAtLeast : List Byte :=
  [Config.opcLdi, Config.opcPrn, Config.opcAdd, Config.opcMul, Config.opcCmp, Config.opcJmp, Config.opcJeq, Config.opcJne]

/-- Opcodes with two operand bytes (30_encoding.md R71). -/
def twoOperands : List Byte :=
  [Config.opcLdi, Config.opcAdd, Config.opcMul, Config.opcCmp]

/-- Opcodes whose second operand byte is a register index (30_encoding.md R63). -/
def secondIsRegister : List Byte :=
  [Config.opcAdd, Config.opcMul, Config.opcCmp]

/-- Whether an instruction with this opcode asks the register file for `x[a]`: all with an operand do, but JEQ only with the
E bit set and JNE only with it clear (60_exceptions.md R156, row by row). -/
def asksForFirst (op : Byte) (fl : BitVec 3) : Bool :=
  if op = Config.opcJeq then fl.getLsbD 0
  else if op = Config.opcJne then !fl.getLsbD 0
  else oneOperandAtLeast.contains op

/-- The fault the next step of a running state raises, if any: the first that holds, from the highest priority to the lowest
(60_exceptions.md R161). -/
def State.faultCause (s : State) : Option Reason :=
  let op := s.mem.read s.pc
  let a := s.mem.read (s.pc + 1)
  let b := s.mem.read (s.pc + 2)
  if Config.memSize ≤ s.pc then some (.outOfBounds (.memory s.pc))
  else if !Config.implementedOpcodes.contains op then some (.unknownInstruction op)
  else if oneOperandAtLeast.contains op ∧ Config.memSize ≤ s.pc + 1 then some (.outOfBounds (.memory (s.pc + 1)))
  else if twoOperands.contains op ∧ Config.memSize ≤ s.pc + 2 then some (.outOfBounds (.memory (s.pc + 2)))
  else if asksForFirst op s.fl ∧ Config.nregs ≤ a.toNat then some (.outOfBounds (.register a))
  else if secondIsRegister.contains op ∧ Config.nregs ≤ b.toNat then some (.outOfBounds (.register b))
  else none

/-- What a terminal state says of the instruction at its `pc`: a halted machine stands at a HLT, a faulted one at an
instruction for which the priority list gives exactly the reason it carries (44_halt_and_reserved.md R140,
60_exceptions.md R162). -/
def State.runJustified (s : State) : Prop :=
  match s.run with
  | .running => True
  | .halted => s.memRead s.pc = .ok Config.opcHlt
  | .faulted r => s.faultCause = some r

end Sys2Proof.Machine
end

