-- ==== Sys2Proof/Certificates/Slice0/Obligations.lean ====
section
/-! DEFINITION. The statements about the machine, for the provers. Each docstring names the rule of the spec it formalises; a
statement that rests on a decision the spec marks as its own says so, and names the log entry where there is one. -/

open Sys2Proof Sys2Proof.Machine

/-! ### Encoding (30_encoding.md) -/

/-- Every well-formed instruction, with every operand at every byte value, decodes from its bytes to itself, and the bytes
after it are left over (30_encoding.md sections 1 to 4). The byte values are the spec's decision D3 (log entry 3), the
placement of the operands D8. That PUSH, POP, CALL and RET are their opcode byte alone, though the format table gives PUSH,
POP and CALL a second byte, rests on D4 and is the model's choice (log entry 8). -/
def Obligations.DecodeInvertsEncode : Prop :=
  ∀ (i : Instr) (rest : List Byte), i.wellFormed = true → decode (encode i ++ rest) = .ok (i, rest)

/-- Whatever the decoder accepts is a well-formed instruction, and the bytes it took are that instruction's encoding
(30_encoding.md sections 1 to 4; D3, log entry 3; D8). For the reserved names that is the opcode byte alone, which rests on
D4 and is the model's choice (log entry 8). -/
def Obligations.EncodeInvertsDecode : Prop :=
  ∀ (bytes rest : List Byte) (i : Instr), decode bytes = .ok (i, rest) →
    i.wellFormed = true ∧ bytes = encode i ++ rest

/-- The opcode values satisfy what the source fixes about them (30_encoding.md section 3): the two top bits are the operand
count, the thirteen values are pairwise distinct, 0xFF is none of them, and the one literal the source prints is `OPC_LDI`.
The values are the spec's decision D3 (log entry 3). -/
def Obligations.OpcodeValuesMeetTheSourcesConstraints : Prop :=
  (∀ op ∈ [Config.opcLdi, Config.opcAdd, Config.opcMul, Config.opcCmp], op.extractLsb 7 6 = 0b10#2) ∧
  (∀ op ∈ [Config.opcPrn, Config.opcJmp, Config.opcJeq, Config.opcJne], op.extractLsb 7 6 = 0b01#2) ∧
  Config.opcHlt.extractLsb 7 6 = 0b00#2 ∧
  (Config.implementedOpcodes ++ Config.reservedOpcodes).Nodup ∧
  (Config.implementedOpcodes ++ Config.reservedOpcodes).length = 13 ∧
  0b11111111#8 ∉ Config.implementedOpcodes ++ Config.reservedOpcodes ∧
  Config.opcLdi = 0b10000010#8

/-- A word of each format, written out from the encoding tables, decodes to the instruction it stands for
(30_encoding.md R61 to R64 formats, R68 values: D3, log entry 3). The second byte is bits 15..8, the third bits 23..16. -/
def Obligations.WrittenOutWordsDecode : Prop :=
  decodeTableWord 24 0b11111111_00000111_10000010 = some (.ldi 7 255) ∧
  decodeTableWord 16 0b00000101_01000111 = some (.prn 5) ∧
  decodeTableWord 24 0b00000001_00000010_10100000 = some (.add 2 1) ∧
  decodeTableWord 24 0b00000110_00000011_10100111 = some (.cmp 3 6) ∧
  decodeTableWord 16 0b11001000_01010101 = some (.jeq 200) ∧
  decodeTableWord 8 0b00000001 = some .hlt ∧
  decodeTableWord 16 0b00000000_01000101 = some .push ∧
  decodeTableWord 8 0b11111111 = some (.unknown 0xFF)

/-- Decoding depends on the bytes at `pc`, `pc + 1`, `pc + 2` alone, and once an instruction is found only on as many of them as
its size, which the first byte alone decides: 3 for LDI, ADD, MUL, CMP, 2 for PRN, JMP, JEQ, JNE, 1 for HLT
(30_encoding.md R71). -/
def Obligations.DecodingDependsOnTheBytesAtPcAlone : Prop :=
  (∀ s t : State, (∀ k < 3, s.memRead (s.pc + k) = t.memRead (t.pc + k)) → fetchInstr s = fetchInstr t) ∧
  (∀ (s t : State) (i : Instr), fetchInstr s = .ok i →
    (∀ k < i.size, s.memRead (s.pc + k) = t.memRead (t.pc + k)) → fetchInstr t = .ok i) ∧
  (∀ (s : State) (i : Instr) (op : Byte), fetchInstr s = .ok i → s.memRead s.pc = .ok op →
    (op ∈ [Config.opcLdi, Config.opcAdd, Config.opcMul, Config.opcCmp] → i.size = 3) ∧
    (op ∈ [Config.opcPrn, Config.opcJmp, Config.opcJeq, Config.opcJne] → i.size = 2) ∧
    (op = Config.opcHlt → i.size = 1))

/-! ### The step (40_fetch_decode_execute_loop.md) -/

/-- A step runs the decoded instruction: where the bytes at `pc` decode to `i`, the step of a running state is `exec i`, with
nothing around it (40_fetch_decode_execute_loop.md section 1). -/
def Obligations.StepRunsTheDecodedInstruction : Prop :=
  ∀ (s : State) (bytes rest : List Byte) (i : Instr), s.run = .running →
    (∀ (k : Nat) (h : k < bytes.length), s.memRead (s.pc + k) = .ok bytes[k]) →
    decode bytes = .ok (i, rest) → step s = exec i s

/-- Where memory ends inside an instruction, the step faults with the address of the first byte it needs and cannot read, and
changes nothing but `run` (40_fetch_decode_execute_loop.md section 1, R81, R83; the fault's payload is D23). -/
def Obligations.MissingByteFaultsWithItsAddress : Prop :=
  ∀ (s : State) (bytes : List Byte) (k : Nat), s.run = .running →
    (∀ (j : Nat) (h : j < bytes.length), s.memRead (s.pc + j) = .ok bytes[j]) →
    Config.memSize ≤ s.pc + bytes.length → decode bytes = .error (.missingByte k) →
    step s = .next { s with run := .faulted (.outOfBounds (.memory (s.pc + k))) }

/-- Running past the last cell never wraps: a step whose `pc` is not below MEM_SIZE faults at its opcode fetch, with `pc` as it
is (10_state.md section 2, D6, log entry 5; 40_fetch_decode_execute_loop.md section 1). -/
def Obligations.PcBeyondMemoryFaultsAndNeverWraps : Prop :=
  ∀ s : State, s.run = .running → Config.memSize ≤ s.pc →
    step s = .next { s with run := .faulted (.outOfBounds (.memory s.pc)) }

/-- Every opcode byte that is not one of the nine implemented values faults at decode: no operand byte is read, nothing but
`run` changes, and no step follows (44_halt_and_reserved.md R144). It covers the four reserved bytes and the 243 others. -/
def Obligations.UnimplementedOpcodeByteFaults : Prop :=
  ∀ (s : State) (op : Byte), s.run = .running → s.memRead s.pc = .ok op → op ∉ Config.implementedOpcodes →
    step s = .next { s with run := .faulted (.unknownInstruction op) } ∧
    ∀ t : State, step { s with run := .faulted (.unknownInstruction op) } ≠ .next t

/-- A running state always has a next state, and no state is ever refused (40_fetch_decode_execute_loop.md section 1). In Halted
and Faulted states the spec has no step (section 2, D21); that `step` answers a fault and not a refusal there is the model's
choice (log entry 1). -/
def Obligations.RunningStateAlwaysSteps : Prop :=
  (∀ s : State, s.run = .running → ∃ t : State, step s = .next t) ∧
  ∀ (s : State) (r : Refusal), step s ≠ .refused r

/-! ### Load immediate and print (41_load_immediate_and_print.md) -/

/-- LDI: its encoding, its effect, its one fault (R100). -/
def Obligations.LdiLoadsItsImmediate : Prop :=
  ∀ (a imm : Byte) (s : State), s.run = .running →
    (∀ rest, decode (Config.opcLdi :: a :: imm :: rest) = .ok (.ldi a imm, rest)) ∧
    (∀ h : a.toNat < 8, exec (.ldi a imm) s = .next { s with regs := s.regs.set a.toNat imm h, pc := s.pc + 3 }) ∧
    (8 ≤ a.toNat → exec (.ldi a imm) s = .next { s with run := .faulted (.outOfBounds (.register a)) })

/-- PRN: its encoding, its effect on the stream and on the line the host renders, its one fault
(41_load_immediate_and_print.md, PRN; 70_reset_and_hazards.md section 3). That the line is the unsigned value is the spec's
decision D5; that it has no terminator is the model's choice (log entry 11). -/
def Obligations.PrnEmitsTheRegister : Prop :=
  ∀ (a : Byte) (s : State), s.run = .running →
    (∀ rest, decode (Config.opcPrn :: a :: rest) = .ok (.prn a, rest)) ∧
    (∀ h : a.toNat < 8, exec (.prn a) s = .next { s with out := s.out ++ [s.regs[a.toNat]], pc := s.pc + 2 } ∧
      { s with out := s.out ++ [s.regs[a.toNat]], pc := s.pc + 2 }.renderedOut =
        s.renderedOut ++ [Nat.toDigits 10 s.regs[a.toNat].toNat]) ∧
    (8 ≤ a.toNat → exec (.prn a) s = .next { s with run := .faulted (.outOfBounds (.register a)) })

/-! ### ALU (42_alu.md) -/

/-- ADD: the sum modulo 256, no flag, the register faults with `a` first (42_alu.md section 1). The wrap-around is the spec's
decision D1 (log entry 4), the order of the checks D9. -/
def Obligations.AddStoresTheSumModulo256 : Prop :=
  ∀ (a b : Byte) (s : State), s.run = .running →
    (∀ (ha : a.toNat < 8) (hb : b.toNat < 8), exec (.add a b) s =
      .next { s with
        regs := s.regs.set a.toNat (BitVec.ofNat 8 ((s.regs[a.toNat].toNat + s.regs[b.toNat].toNat) % 256)) ha
        pc := s.pc + 3 }) ∧
    (8 ≤ a.toNat → exec (.add a b) s = .next { s with run := .faulted (.outOfBounds (.register a)) }) ∧
    (a.toNat < 8 → 8 ≤ b.toNat → exec (.add a b) s = .next { s with run := .faulted (.outOfBounds (.register b)) })

/-- MUL: the low eight bits of the product, no flag, the register faults with `a` first (42_alu.md section 1). The
wrap-around is the spec's decision D1 (log entry 4), the order of the checks D9. -/
def Obligations.MulStoresTheProductModulo256 : Prop :=
  ∀ (a b : Byte) (s : State), s.run = .running →
    (∀ (ha : a.toNat < 8) (hb : b.toNat < 8), exec (.mul a b) s =
      .next { s with
        regs := s.regs.set a.toNat (BitVec.ofNat 8 ((s.regs[a.toNat].toNat * s.regs[b.toNat].toNat) % 256)) ha
        pc := s.pc + 3 }) ∧
    (8 ≤ a.toNat → exec (.mul a b) s = .next { s with run := .faulted (.outOfBounds (.register a)) }) ∧
    (a.toNat < 8 → 8 ≤ b.toNat → exec (.mul a b) s = .next { s with run := .faulted (.outOfBounds (.register b)) })

/-- CMP: exactly one of the three flag values, by the unsigned order; the register faults with `a` first leave the flag
(42_alu.md section 1). The unsigned reading is the spec's decision D5, the order of the checks D9. -/
def Obligations.CmpSetsExactlyOneFlagBit : Prop :=
  ∀ (a b : Byte) (s : State), s.run = .running →
    (∀ (_ : a.toNat < 8) (_ : b.toNat < 8),
      (s.regs[a.toNat].toNat = s.regs[b.toNat].toNat →
        exec (.cmp a b) s = .next { s with fl := 0b001#3, pc := s.pc + 3 }) ∧
      (s.regs[a.toNat].toNat < s.regs[b.toNat].toNat →
        exec (.cmp a b) s = .next { s with fl := 0b100#3, pc := s.pc + 3 }) ∧
      (s.regs[b.toNat].toNat < s.regs[a.toNat].toNat →
        exec (.cmp a b) s = .next { s with fl := 0b010#3, pc := s.pc + 3 })) ∧
    (8 ≤ a.toNat → exec (.cmp a b) s = .next { s with run := .faulted (.outOfBounds (.register a)) }) ∧
    (a.toNat < 8 → 8 ≤ b.toNat → exec (.cmp a b) s = .next { s with run := .faulted (.outOfBounds (.register b)) })

/-- `UnsupportedOperation`: the ALU fails so on any operation name but the three, and no step ever produces it
(60_exceptions.md R154). -/
def Obligations.UnsupportedOperationIsUnreachable : Prop :=
  (∀ (name : String) (va vb : Word), alu (.other name) va vb = .error .unsupportedOperation) ∧
  ∀ s t : State, step s = .next t → t.run ≠ .faulted .unsupportedOperation

/-! ### Control transfer (43_control_transfer.md) -/

/-- JMP: its encoding, its effect, its one fault (R130). -/
def Obligations.JmpGoesToTheRegister : Prop :=
  ∀ (a : Byte) (s : State), s.run = .running →
    (∀ rest, decode (Config.opcJmp :: a :: rest) = .ok (.jmp a, rest)) ∧
    (∀ _ : a.toNat < 8, exec (.jmp a) s = .next { s with pc := s.regs[a.toNat].toNat }) ∧
    (8 ≤ a.toNat → exec (.jmp a) s = .next { s with run := .faulted (.outOfBounds (.register a)) })

/-- JEQ: taken exactly when bit 0 of `fl` is set; untaken it advances by 2 whatever its operand byte is
(43_control_transfer.md section 1). That an untaken jump does not check its register is the spec's decision D11. -/
def Obligations.JeqJumpsWhenEqualBitSet : Prop :=
  ∀ (a : Byte) (s : State), s.run = .running →
    (s.fl.getLsbD 0 = true →
      (∀ _ : a.toNat < 8, exec (.jeq a) s = .next { s with pc := s.regs[a.toNat].toNat }) ∧
      (8 ≤ a.toNat → exec (.jeq a) s = .next { s with run := .faulted (.outOfBounds (.register a)) })) ∧
    (s.fl.getLsbD 0 = false → exec (.jeq a) s = .next { s with pc := s.pc + 2 })

/-- JNE: taken exactly when bit 0 of `fl` is clear; untaken it advances by 2 whatever its operand byte is
(43_control_transfer.md section 1). That an untaken jump does not check its register is the spec's decision D11. -/
def Obligations.JneJumpsWhenEqualBitClear : Prop :=
  ∀ (a : Byte) (s : State), s.run = .running →
    (s.fl.getLsbD 0 = false →
      (∀ _ : a.toNat < 8, exec (.jne a) s = .next { s with pc := s.regs[a.toNat].toNat }) ∧
      (8 ≤ a.toNat → exec (.jne a) s = .next { s with run := .faulted (.outOfBounds (.register a)) })) ∧
    (s.fl.getLsbD 0 = true → exec (.jne a) s = .next { s with pc := s.pc + 2 })

/-- In every state one of JEQ and JNE does as JMP does, and the other only advances by 2; both readings hold where the register
holds `pc + 2` (43_control_transfer.md section 1, JNE's corner cases; for operand bytes 8..255 D11). That `exec` answers so
in Halted and Faulted states too is the model's choice (log entry 2). -/
def Obligations.JeqAndJneAreComplements : Prop :=
  ∀ (a : Byte) (s : State),
    (exec (.jeq a) s = exec (.jmp a) s ∧ exec (.jne a) s = .next { s with pc := s.pc + 2 }) ∨
    (exec (.jne a) s = exec (.jmp a) s ∧ exec (.jeq a) s = .next { s with pc := s.pc + 2 })

/-- The whole table of how an instruction changes `pc` (10_state.md section 2; 43_control_transfer.md section 2): while the
machine keeps running it is `pc` plus the instruction's length, or the register of a taken JMP, JEQ or JNE; when the machine
halts (D7) or faults (D10) it is unchanged. -/
def Obligations.OnlyJumpsDivertPc : Prop :=
  ∀ (i : Instr) (s t : State), s.run = .running → exec i s = .next t →
    (t.run = .running →
      t.pc = s.pc + i.size ∨
      ∃ (a : Byte) (_ : a.toNat < 8),
        (i = .jmp a ∨ (i = .jeq a ∧ s.fl.getLsbD 0 = true) ∨ (i = .jne a ∧ s.fl.getLsbD 0 = false)) ∧
        t.pc = s.regs[a.toNat].toNat) ∧
    (t.run ≠ .running → t.pc = s.pc)

/-- A JMP cannot leave memory: after it the next opcode fetch is within bounds (00_scope.md section 3, derived there
from XLEN = 8, D1, and MEM_SIZE = 256, D2; log entries 4 and 5). -/
def Obligations.JmpStaysInMemory : Prop :=
  ∀ (a : Byte) (s t : State), s.run = .running → exec (.jmp a) s = .next t → t.run = .running →
    ∃ op : Byte, t.memRead t.pc = .ok op

/-- A JMP to itself repeats the same state for ever: any number of steps leads back to it
(40_fetch_decode_execute_loop.md section 2; 43_control_transfer.md section 1). -/
def Obligations.JumpToItselfRunsForever : Prop :=
  ∀ (s : State) (a : Byte) (_ : a.toNat < 8), s.run = .running → s.memRead s.pc = .ok Config.opcJmp →
    s.memRead (s.pc + 1) = .ok a → s.regs[a.toNat].toNat = s.pc →
    ∀ n : Nat, Sys2Proof.core.run n s = .next s

/-! ### Halt, reserved and unknown (44_halt_and_reserved.md) -/

/-- HLT: `run` becomes Halted, everything else, `pc` too, stays, and no step follows (44_halt_and_reserved.md section 1). That
`pc` stays is the spec's decision D7; that no step follows is D21 (log entry 1). -/
def Obligations.HltHaltsInPlace : Prop :=
  ∀ s : State, s.run = .running →
    exec .hlt s = .next { s with run := .halted } ∧ ∀ t : State, step { s with run := .halted } ≠ .next t

/-- PUSH, POP, CALL, RET: the opcode byte alone decodes to the name, and executing it faults with that byte and changes
nothing else (44_halt_and_reserved.md sections 2 and 5; the spec's decision D4; byte values D3, log entry 3). -/
def Obligations.ReservedOpcodesFault : Prop :=
  ∀ (s : State) (rest : List Byte), s.run = .running →
    (decode (0x45#8 :: rest) = .ok (.push, rest) ∧
      exec .push s = .next { s with run := .faulted (.unknownInstruction 0x45) }) ∧
    (decode (0x46#8 :: rest) = .ok (.pop, rest) ∧
      exec .pop s = .next { s with run := .faulted (.unknownInstruction 0x46) }) ∧
    (decode (0x50#8 :: rest) = .ok (.call, rest) ∧
      exec .call s = .next { s with run := .faulted (.unknownInstruction 0x50) }) ∧
    (decode (0x11#8 :: rest) = .ok (.ret, rest) ∧
      exec .ret s = .next { s with run := .faulted (.unknownInstruction 0x11) })

/-- A byte without a name decodes to the row `(unknown)` with no operand, and executing it faults with that byte and changes
nothing else (44_halt_and_reserved.md section 3; the payload is D23; which bytes have names is D3, log entry 3). -/
def Obligations.UnknownBytesFault : Prop :=
  ∀ (s : State) (op : Byte) (rest : List Byte), s.run = .running →
    op ∉ Config.implementedOpcodes ++ Config.reservedOpcodes →
    decode (op :: rest) = .ok (.unknown op, rest) ∧
    exec (.unknown op) s = .next { s with run := .faulted (.unknownInstruction op) }

/-! ### Frames -/

/-- LDI, ADD and MUL leave every register but `x[a]`, the flag, the output and every byte of memory as they were; `run` stays
or becomes a register fault (10_state.md sections 1 and 3). -/
def Obligations.RegisterWritersFrame : Prop :=
  ∀ (a b : Byte) (i : Instr) (s t : State), (i = .ldi a b ∨ i = .add a b ∨ i = .mul a b) → exec i s = .next t →
    (∀ (k : Nat) (_ : k < 8), k ≠ a.toNat → t.regs[k] = s.regs[k]) ∧
    t.fl = s.fl ∧ t.out = s.out ∧ (∀ addr, t.memRead addr = s.memRead addr) ∧
    (t.run = s.run ∨ ∃ j : Byte, (j = a ∨ j = b) ∧ t.run = .faulted (.outOfBounds (.register j)))

/-- PRN leaves every register, the flag and every byte of memory as they were, and only appends to the output; `run` stays or
becomes a register fault (10_state.md sections 1, 3 and 5). -/
def Obligations.PrnFrame : Prop :=
  ∀ (a : Byte) (s t : State), exec (.prn a) s = .next t →
    (∀ (k : Nat) (_ : k < 8), t.regs[k] = s.regs[k]) ∧
    t.fl = s.fl ∧ (∃ more : List Word, t.out = s.out ++ more) ∧ (∀ addr, t.memRead addr = s.memRead addr) ∧
    (t.run = s.run ∨ t.run = .faulted (.outOfBounds (.register a)))

/-- CMP leaves every register, the output and every byte of memory as they were; `run` stays or becomes a register fault, and
then the flag stays too (10_state.md sections 1 and 3). -/
def Obligations.CmpFrame : Prop :=
  ∀ (a b : Byte) (s t : State), exec (.cmp a b) s = .next t →
    (∀ (k : Nat) (_ : k < 8), t.regs[k] = s.regs[k]) ∧
    t.out = s.out ∧ (∀ addr, t.memRead addr = s.memRead addr) ∧
    (t.run = s.run ∨
      (t.fl = s.fl ∧ ∃ j : Byte, (j = a ∨ j = b) ∧ t.run = .faulted (.outOfBounds (.register j))))

/-- JMP, JEQ and JNE leave every register, the flag, the output and every byte of memory as they were; `run` stays or becomes
a register fault (10_state.md sections 1 to 3). -/
def Obligations.JumpFrame : Prop :=
  ∀ (a : Byte) (i : Instr) (s t : State), (i = .jmp a ∨ i = .jeq a ∨ i = .jne a) → exec i s = .next t →
    (∀ (k : Nat) (_ : k < 8), t.regs[k] = s.regs[k]) ∧
    t.fl = s.fl ∧ t.out = s.out ∧ (∀ addr, t.memRead addr = s.memRead addr) ∧
    (t.run = s.run ∨ t.run = .faulted (.outOfBounds (.register a)))

/-- HLT, PUSH, POP, CALL, RET and the unknown bytes leave every register, the flag, `pc`, the output and every byte of memory
as they were, and end the run (44_halt_and_reserved.md; D4, D7, D10). -/
def Obligations.RunEndersFrame : Prop :=
  ∀ (op : Byte) (i : Instr) (s t : State),
    (i = .hlt ∨ i = .push ∨ i = .pop ∨ i = .call ∨ i = .ret ∨ i = .unknown op) → exec i s = .next t →
    (∀ (k : Nat) (_ : k < 8), t.regs[k] = s.regs[k]) ∧
    t.fl = s.fl ∧ t.pc = s.pc ∧ t.out = s.out ∧ (∀ addr, t.memRead addr = s.memRead addr) ∧ t.run ≠ .running

/-! ### Whole-machine rules -/

/-- `fl` is set only by CMP and read only by JEQ and JNE (10_state.md R28): every other instruction leaves it alone and does
the same whatever it holds; CMP overwrites all of it and its result does not depend on what it held; JEQ and JNE depend on
bit 0 only; a step that faults leaves it alone. -/
def Obligations.FlagIsSetByCmpAndReadByConditionalJumpsOnly : Prop :=
  (∀ (i : Instr) (s t : State), (∀ a b, i ≠ .cmp a b) → exec i s = .next t → t.fl = s.fl) ∧
  (∀ (i : Instr) (s t : State) (f : BitVec 3), (∀ a b, i ≠ .cmp a b) → (∀ a, i ≠ .jeq a ∧ i ≠ .jne a) →
    exec i s = .next t → exec i { s with fl := f } = .next { t with fl := f }) ∧
  (∀ (a b : Byte) (s t : State) (f : BitVec 3), a.toNat < 8 → b.toNat < 8 → exec (.cmp a b) s = .next t →
    exec (.cmp a b) { s with fl := f } = .next t ∧ (t.fl = 0b001#3 ∨ t.fl = 0b010#3 ∨ t.fl = 0b100#3)) ∧
  (∀ (a : Byte) (s t : State) (f : BitVec 3), f.getLsbD 0 = s.fl.getLsbD 0 →
    (exec (.jeq a) s = .next t → exec (.jeq a) { s with fl := f } = .next { t with fl := f }) ∧
    (exec (.jne a) s = .next t → exec (.jne a) { s with fl := f } = .next { t with fl := f })) ∧
  (∀ (s t : State) (r : Reason), step s = .next t → t.run = .faulted r → t.fl = s.fl)

/-- The run state (10_state.md section 4): initially Running; no step leaves Halted or Faulted; Halted is reached by HLT alone;
Faulted is reached by a raise alone, which changes nothing else (the spec's decision D10); and no instruction reads it, where
that `exec` answers in Halted and Faulted states at all is the model's choice (log entry 2). -/
def Obligations.RunStateTransitions : Prop :=
  State.reset.run = .running ∧
  (∀ s t : State, s.run ≠ .running → step s ≠ .next t) ∧
  (∀ s t : State, step s = .next t → t.run = .halted → s.memRead s.pc = .ok Config.opcHlt) ∧
  (∀ (s t : State) (r : Reason), step s = .next t → t.run = .faulted r → t = { s with run := .faulted r }) ∧
  (∀ (i : Instr) (s t : State) (r : RunState), exec i s = .next t →
    ∃ u : State, exec i { s with run := r } = .next u ∧ { u with run := t.run } = t)

/-- No instruction reads `pc` as a data value: from another `pc` the same instruction has the same effect on everything else
(10_state.md section 2). -/
def Obligations.PcIsNotReadAsData : Prop :=
  ∀ (i : Instr) (s t : State) (p : Nat), exec i s = .next t →
    ∃ u : State, exec i { s with pc := p } = .next u ∧ { u with pc := t.pc } = t

/-- No step changes any cell of memory (10_state.md section 5, derived there; 20_memory.md section 1). -/
def Obligations.MemoryIsConstantDuringARun : Prop :=
  ∀ s t : State, step s = .next t → t.mem = s.mem

/-- The output is append-only: a step leaves it as it is, or is a PRN at `pc` and appends the one register it names
(10_state.md section 5; that the output is state is the spec's decision D17). -/
def Obligations.OutputGrowsByPrnAlone : Prop :=
  ∀ s t : State, step s = .next t →
    t.out = s.out ∨
    ∃ (a : Byte) (_ : a.toNat < 8), s.memRead s.pc = .ok Config.opcPrn ∧ s.memRead (s.pc + 1) = .ok a ∧
      t.out = s.out ++ [s.regs[a.toNat]]

/-- Nothing reads the output back: with other values emitted before, the same step has the same effect
(10_state.md section 5; D17). -/
def Obligations.OutputIsNeverReadBack : Prop :=
  ∀ (s t : State) (earlier : List Word), step s = .next t →
    step { s with out := earlier ++ s.out } = .next { t with out := earlier ++ t.out }

/-- Which fault a step raises: exactly the first of the six causes, in the spec's priority, that holds; where none holds the
step completes or halts (60_exceptions.md sections 1 and 3; the priority is the spec's decision D9, and that
a fault changes `run` only is D10). `State.faultCause` is the priority list, written without the decoder. -/
def Obligations.StepFaultsByThePriorityList : Prop :=
  ∀ s : State, s.run = .running →
    (∀ r : Reason, s.faultCause = some r → step s = .next { s with run := .faulted r }) ∧
    (s.faultCause = none → ∃ t : State, step s = .next t ∧ (t.run = .running ∨ t.run = .halted))

/-- Every step leads from a state that meets the invariant to one that does: the flag is none, equal, greater or less;
`pc` is in 0..MEM_SIZE (10_state.md section 8; D1, D2, D6, log entries 4 and 5); memory is in its canonical form, which is the
model's own (log entry 7). -/
def Obligations.StepKeepsTheInvariant : Prop :=
  ∀ s t : State, s.inv → step s = .next t → t.inv

/-- The reset state meets the invariant (10_state.md sections 7 and 8; D12, log entry 6; the canonical form of memory is the
model's own, log entry 7). -/
def Obligations.ResetMeetsTheInvariant : Prop :=
  State.reset.inv

/-- A terminal state always stands at what ended the run: a halted one at a HLT, a faulted one at an instruction for which the
priority list gives exactly the reason it carries. Reset starts so and every step leaves it so (60_exceptions.md sections 1,
3 and 4; D7, D9, D10). -/
def Obligations.TerminalStateNamesItsCause : Prop :=
  State.reset.runJustified ∧ ∀ s t : State, s.runJustified → step s = .next t → t.runJustified

/-! ### Registers and memory -/

/-- The register file's contract (10_state.md R22): an operand byte below 8 reads its register, and a write stores the value
unchanged and touches nothing else; any other byte, not reduced modulo 8, fails. -/
def Obligations.RegisterFileContract : Prop :=
  ∀ (s : State) (i : Byte) (v : Word),
    (∀ _ : i.toNat < 8, s.regRead i = .ok s.regs[i.toNat] ∧
      ∃ t : State, s.regWrite i v = .ok t ∧ t.regRead i = .ok v ∧ (∀ j : Byte, j ≠ i → t.regRead j = s.regRead j) ∧
        { t with regs := s.regs } = s) ∧
    (8 ≤ i.toNat → s.regRead i = .error (.outOfBounds (.register i)) ∧
      s.regWrite i v = .error (.outOfBounds (.register i)))

/-- Memory's contract on canonical memories (the model's own form, log entry 7): a read after a write to the same address gives the byte written, and every other
address reads as before; both succeed exactly below MEM_SIZE (20_memory.md section 1; MEM_SIZE is D2, log entry 5). -/
def Obligations.MemoryReadAfterWrite : Prop :=
  ∀ (s : State) (addr : Nat) (v : Byte), s.mem.wf →
    (addr < 256 → ∃ t : State, s.memWrite addr v = .ok t ∧ t.memRead addr = .ok v ∧
      (∀ other, other ≠ addr → t.memRead other = s.memRead other) ∧ { t with mem := s.mem } = s) ∧
    (256 ≤ addr → s.memRead addr = .error (.outOfBounds (.memory addr)) ∧
      s.memWrite addr v = .error (.outOfBounds (.memory addr)))

/-- Canonical memories that read alike are equal, so two states that hold the same bytes are the same data
(10_state.md section 5; the form is the model's own, log entry 7). -/
def Obligations.EqualReadsMakeEqualMemories : Prop :=
  ∀ m n : Memory, m.wf → n.wf → (∀ addr, addr < Config.memSize → m.read addr = n.read addr) → m = n

/-- An access out of range is a failure, never a wrap and never silent, for memory and for registers (20_memory.md R43). -/
def Obligations.OutOfRangeAccessIsNeverSilent : Prop :=
  ∀ (s : State) (addr : Nat) (i : Byte) (v : Byte),
    (Config.memSize ≤ addr → s.memRead addr = .error (.outOfBounds (.memory addr)) ∧
      s.memWrite addr v = .error (.outOfBounds (.memory addr))) ∧
    (Config.nregs ≤ i.toNat → s.regRead i = .error (.outOfBounds (.register i)) ∧
      s.regWrite i v = .error (.outOfBounds (.register i)))

/-! ### Reset, load, output as the host sees it (70_reset_and_hazards.md) -/

/-- Reset, in any state, puts every piece of state at its reset value (70_reset_and_hazards.md section 1; 10_state.md section
7). The registers' and the flag's values are the spec's decision D12 (log entry 6). -/
def Obligations.ResetRestoresEveryPieceOfState : Prop :=
  ∀ s : State, (∀ (k : Nat) (_ : k < 8), s.hostReset.regs[k] = 0#8) ∧ s.hostReset.fl = 0b000#3 ∧ s.hostReset.pc = 0 ∧
    s.hostReset.run = .running ∧ (∀ addr < 256, s.hostReset.memRead addr = .ok 0#8) ∧ s.hostReset.out = []

/-- The entry point is address 0 in state Running, whatever image is loaded (70_reset_and_hazards.md R181). -/
def Obligations.ExecutionBeginsAtAddressZero : Prop :=
  State.reset.pc = 0 ∧ State.reset.run = .running ∧
  ∀ (img : List Byte) (s : State), launch img = .ok s → s.pc = 0 ∧ s.run = .running

/-- The launch state: an image that fits is placed at address 0 and up, the cells after it hold 0, and nothing else differs
from reset; a longer image is the loader's error at address MEM_SIZE (70_reset_and_hazards.md section 2; 20_memory.md
section 5; D2, D12, D19, log entries 5, 6 and 10). -/
def Obligations.LaunchPlacesTheImage : Prop :=
  ∀ img : List Byte,
    (img.length ≤ 256 → ∃ s : State, launch img = .ok s ∧
      (∀ addr < 256, s.memRead addr = .ok (img.getD addr 0#8)) ∧ { s with mem := [] } = State.reset) ∧
    (256 < img.length → launch img = .error (.outOfBounds (.memory 256)))

/-- A launch state meets the invariant, and what its `run` says is justified by the instruction at its `pc` (10_state.md section
8; 70_reset_and_hazards.md section 2; D12, D19, log entries 6 and 10; the canonical form of memory is the model's own, log
entry 7). That it is running is ExecutionBeginsAtAddressZero. -/
def Obligations.LaunchMeetsTheInvariant : Prop :=
  ∀ (img : List Byte) (s : State), launch img = .ok s → s.inv ∧ s.runJustified

/-- The line of a printed value is its shortest unsigned decimal: at least one digit, digits only, worth the value, no leading
zero but for zero itself (70_reset_and_hazards.md section 3; the unsigned reading is D5). That the line is digits
only, with no terminator, is the model's choice (log entry 11). -/
def Obligations.RenderedLineIsShortestDecimal : Prop :=
  ∀ v : Word,
    renderLine v ≠ [] ∧
    (renderLine v).foldl (fun n c => 10 * n + (c.toNat - 48)) 0 = v.toNat ∧
    (renderLine v).all Char.isDigit = true ∧
    ((renderLine v).head? = some '0' → renderLine v = ['0'])

/-! ### The source's testable properties (95_test_vectors.md S1 to S4) -/

/-- LDI then PRN of the same register prints the immediate exactly (95_test_vectors.md S1). -/
def Obligations.LdiThenPrnPrintsTheImmediate : Prop :=
  ∀ (r v : Byte) (s : State), s.run = .running → r.toNat < 8 →
    ∃ t u : State, exec (.ldi r v) s = .next t ∧ exec (.prn r) t = .next u ∧
      u.out = s.out ++ [v] ∧ u.pc = s.pc + 5 ∧ u.run = .running

/-- ADD then PRN prints the sum of the values before, MUL then PRN their product, modulo the word width, also for one register
named twice (95_test_vectors.md S2; the wrap-around is D1, log entry 4). -/
def Obligations.ArithmeticThenPrnPrintsTheResult : Prop :=
  ∀ (a b : Byte) (s : State) (_ : a.toNat < 8) (_ : b.toNat < 8), s.run = .running →
    (∃ t u : State, exec (.add a b) s = .next t ∧ exec (.prn a) t = .next u ∧
      u.out = s.out ++ [BitVec.ofNat 8 (s.regs[a.toNat].toNat + s.regs[b.toNat].toNat)]) ∧
    (∃ t u : State, exec (.mul a b) s = .next t ∧ exec (.prn a) t = .next u ∧
      u.out = s.out ++ [BitVec.ofNat 8 (s.regs[a.toNat].toNat * s.regs[b.toNat].toNat)])

/-- After a CMP of equal registers JEQ jumps and JNE does not; after a CMP of different ones JNE jumps and JEQ does not
(95_test_vectors.md S3, S4). -/
def Obligations.CmpDecidesTheConditionalJumps : Prop :=
  ∀ (a b c : Byte) (s : State) (_ : a.toNat < 8) (_ : b.toNat < 8) (_ : c.toNat < 8), s.run = .running →
    ∃ t : State, exec (.cmp a b) s = .next t ∧ t.run = .running ∧
      (s.regs[a.toNat] = s.regs[b.toNat] →
        exec (.jeq c) t = .next { t with pc := s.regs[c.toNat].toNat } ∧
        exec (.jne c) t = .next { t with pc := t.pc + 2 }) ∧
      (s.regs[a.toNat] ≠ s.regs[b.toNat] →
        exec (.jne c) t = .next { t with pc := s.regs[c.toNat].toNat } ∧
        exec (.jeq c) t = .next { t with pc := t.pc + 2 })
end

