-- ==== Sys2Proof/Laws/Decode.lean ====
section
/-! SUPPORT. The opcode table, looked up once per row, and what the fetch order depends on. -/

namespace Sys2Proof

@[simp] theorem lookup_ldi : lookupOpcode Config.opcLdi = some (.op2RI .ldi) := rfl
@[simp] theorem lookup_prn : lookupOpcode Config.opcPrn = some (.op1R .prn) := rfl
@[simp] theorem lookup_add : lookupOpcode Config.opcAdd = some (.op2RR .add) := rfl
@[simp] theorem lookup_mul : lookupOpcode Config.opcMul = some (.op2RR .mul) := rfl
@[simp] theorem lookup_cmp : lookupOpcode Config.opcCmp = some (.op2RR .cmp) := rfl
@[simp] theorem lookup_jmp : lookupOpcode Config.opcJmp = some (.op1R .jmp) := rfl
@[simp] theorem lookup_jeq : lookupOpcode Config.opcJeq = some (.op1R .jeq) := rfl
@[simp] theorem lookup_jne : lookupOpcode Config.opcJne = some (.op1R .jne) := rfl
@[simp] theorem lookup_hlt : lookupOpcode Config.opcHlt = some (.op0 .hlt) := rfl

/-- Everything the table lookup can answer: one of the nine rows, or nothing for every other byte. -/
theorem lookupOpcode_cases (op : Byte) :
    op ∈ Config.implementedOpcodes ∨ (op ∉ Config.implementedOpcodes ∧ lookupOpcode op = none) := by
  by_cases h : op ∈ Config.implementedOpcodes
  · exact .inl h
  · refine .inr ⟨h, ?_⟩
    simp only [Config.implementedOpcodes, List.mem_cons, List.not_mem_nil, or_false, not_or] at h
    obtain ⟨h1, h2, h3, h4, h5, h6, h7, h8, h9⟩ := h
    simp only [lookupOpcode, opTable, findRow, if_neg, h1, h2, h3, h4, h5, h6, h7, h8, h9, not_false_eq_true]

/-- Everything an undecoded byte can be: one of the four reserved names, or the row `(unknown)`. -/
theorem undecodedByte_cases (op : Byte) :
    (op = Config.opcPush ∧ undecodedByte op = .push) ∨ (op = Config.opcPop ∧ undecodedByte op = .pop) ∨
    (op = Config.opcCall ∧ undecodedByte op = .call) ∨ (op = Config.opcRet ∧ undecodedByte op = .ret) ∨
    (op ∉ Config.reservedOpcodes ∧ undecodedByte op = .unknown op) := by
  by_cases h1 : op = Config.opcPush
  · subst h1; exact .inl ⟨rfl, rfl⟩
  by_cases h2 : op = Config.opcPop
  · subst h2; exact .inr (.inl ⟨rfl, rfl⟩)
  by_cases h3 : op = Config.opcCall
  · subst h3; exact .inr (.inr (.inl ⟨rfl, rfl⟩))
  by_cases h4 : op = Config.opcRet
  · subst h4; exact .inr (.inr (.inr (.inl ⟨rfl, rfl⟩)))
  refine .inr (.inr (.inr (.inr ⟨by simp [Config.reservedOpcodes, h1, h2, h3, h4], ?_⟩)))
  simp only [undecodedByte, reservedTable, findRow, if_neg, h1, h2, h3, h4, not_false_eq_true]

/-- Two readers that agree on the three offsets decode alike. -/
theorem decodeWith_congr {ε : Type} (f g : Nat → Except ε Byte) (h0 : f 0 = g 0) (h1 : f 1 = g 1) (h2 : f 2 = g 2) :
    decodeWith f = decodeWith g := by
  simp only [decodeWith, h0, h1, h2]

end Sys2Proof
end

