-- ==== Sys2Proof/Laws/Memory.lean ====
section
/-! SUPPORT. Memory: every operation keeps the canonical form, and what a write does to a later read. -/

namespace Sys2Proof.Machine

@[simp] theorem Memory.read_nil (addr : Nat) : Memory.read [] addr = Config.memReset := rfl

@[simp] theorem Memory.read_cons (c : Host.Cell) (m : Memory) (addr : Nat) :
    Memory.read (c :: m) addr = if c.1 = addr then c.2 else Memory.read m addr := rfl

/-- A cell no entry lists holds the reset value. -/
theorem Memory.read_of_not_listed (m : Memory) (addr : Nat) (h : ∀ c ∈ m, c.1 ≠ addr) :
    m.read addr = Config.memReset := by
  induction m with
  | nil => rfl
  | cons c m ih =>
    have hc := h c (by simp)
    simp only [Memory.read_cons, if_neg hc]
    exact ih fun d hd => h d (by simp [hd])

/-- Below the first entry of a canonical memory every cell holds the reset value. -/
theorem Memory.read_below (c : Host.Cell) (m : Memory) (addr : Nat)
    (h : (c :: m).Pairwise (fun d e => d.1 < e.1)) (ha : addr < c.1) :
    Memory.read (c :: m) addr = Config.memReset := by
  refine Memory.read_of_not_listed _ _ fun d hd => ?_
  rcases List.mem_cons.mp hd with rfl | hd
  · omega
  · have := (List.pairwise_cons.mp h).1 d hd
    omega

/-- The entries of a memory after a write: old ones, and the written one. -/
theorem Memory.mem_write (m : Memory) (addr : Nat) (v : Byte) (c : Host.Cell) (hc : c ∈ m.write addr v) :
    c ∈ m ∨ (c = (addr, v) ∧ v ≠ Config.memReset) := by
  induction m with
  | nil =>
    by_cases hv : v = Config.memReset <;> simp_all [Memory.write, Memory.consCell]
  | cons d m ih =>
    simp only [Memory.write, Memory.consCell] at hc
    split at hc
    · split at hc
      · exact .inl hc
      · rcases List.mem_cons.mp hc with rfl | hc
        · exact .inr ⟨rfl, ‹_›⟩
        · exact .inl hc
    · split at hc
      · split at hc
        · exact .inl (by simp [hc])
        · rcases List.mem_cons.mp hc with rfl | hc
          · exact .inr ⟨rfl, ‹_›⟩
          · exact .inl (by simp [hc])
      · rcases List.mem_cons.mp hc with rfl | hc
        · exact .inl (by simp)
        · rcases ih hc with h | h
          · exact .inl (by simp [h])
          · exact .inr h

/-- A write keeps the addresses strictly rising. -/
theorem Memory.pairwise_write (m : Memory) (addr : Nat) (v : Byte)
    (h : m.Pairwise (fun c d => c.1 < d.1)) : (m.write addr v).Pairwise (fun c d => c.1 < d.1) := by
  induction m with
  | nil =>
    by_cases hv : v = Config.memReset <;> simp [Memory.write, Memory.consCell, hv]
  | cons d m ih =>
    obtain ⟨hd, hm⟩ := List.pairwise_cons.mp h
    simp only [Memory.write, Memory.consCell]
    split
    · split
      · exact h
      · refine List.pairwise_cons.mpr ⟨fun c hc => ?_, h⟩
        rcases List.mem_cons.mp hc with rfl | hc
        · assumption
        · exact lt_trans (by assumption) (hd c hc)
    · split
      · split
        · exact hm
        · refine List.pairwise_cons.mpr ⟨fun c hc => ?_, hm⟩
          have := hd c hc
          simp_all
      · refine List.pairwise_cons.mpr ⟨fun c hc => ?_, ih hm⟩
        rcases Memory.mem_write m addr v c hc with hc | ⟨rfl, _⟩
        · exact hd c hc
        · simp only
          omega

/-- A write to a cell that exists keeps the canonical form. -/
theorem Memory.wf_write (m : Memory) (addr : Nat) (v : Byte) (h : m.wf) (ha : addr < Config.memSize) :
    (m.write addr v).wf := by
  refine ⟨Memory.pairwise_write m addr v h.1, fun c hc => ?_⟩
  rcases Memory.mem_write m addr v c hc with hc | ⟨rfl, hv⟩
  · exact h.2 c hc
  · exact ⟨ha, hv⟩

/-- Placing bytes keeps the canonical form. -/
theorem Memory.wf_place (bytes : List Byte) (m : Memory) (addr : Nat) (h : m.wf) : (m.place addr bytes).wf := by
  induction bytes generalizing m addr with
  | nil => exact h
  | cons b rest ih =>
    refine ih _ _ ?_
    split
    · exact Memory.wf_write m addr b h ‹_›
    · exact h

/-- The reset memory is canonical. -/
theorem State.reset_mem_wf : State.reset.mem.wf := by decide

/-- `MemWrite` keeps the canonical form. -/
theorem State.memWrite_wf (s t : State) (addr : Nat) (v : Byte) (h : s.mem.wf) (e : s.memWrite addr v = .ok t) :
    t.mem.wf := by
  unfold State.memWrite at e
  split at e
  · cases e
    exact Memory.wf_write _ _ _ h ‹_›
  · cases e

/-- The loader keeps the canonical form. -/
theorem loadFrom_wf (img : List Byte) (k : Nat) (s t : State) (h : s.mem.wf) (e : loadFrom k img s = .ok t) :
    t.mem.wf := by
  induction img generalizing k s with
  | nil => cases e; exact h
  | cons b rest ih =>
    simp only [loadFrom] at e
    split at e
    · cases e
    · exact ih _ _ (State.memWrite_wf _ _ _ _ h ‹_›) e

/-- Storing a table word where the next instruction is fetched keeps the canonical form. -/
theorem State.withFetchWord_wf (s : State) (nbits w : Nat) (h : s.mem.wf) : (s.withFetchWord nbits w).mem.wf :=
  Memory.wf_place _ _ _ h

end Sys2Proof.Machine
end

