-- ==== Sys2Proof/Laws/State.lean ====
section
/-! SUPPORT. One lemma per field per update of the state, so that no later proof unfolds a record update. -/

namespace Sys2Proof.Machine

variable (s : State)

/-! `State.setFlag` writes `fl` alone. -/
@[simp] theorem State.setFlag_regs (bits : BitVec 3) : (s.setFlag bits).regs = s.regs := rfl
@[simp] theorem State.setFlag_fl (bits : BitVec 3) : (s.setFlag bits).fl = bits := rfl
@[simp] theorem State.setFlag_pc (bits : BitVec 3) : (s.setFlag bits).pc = s.pc := rfl
@[simp] theorem State.setFlag_run (bits : BitVec 3) : (s.setFlag bits).run = s.run := rfl
@[simp] theorem State.setFlag_mem (bits : BitVec 3) : (s.setFlag bits).mem = s.mem := rfl
@[simp] theorem State.setFlag_out (bits : BitVec 3) : (s.setFlag bits).out = s.out := rfl

/-! `State.emit` writes `out` alone. -/
@[simp] theorem State.emit_regs (v : Word) : (s.emit v).regs = s.regs := rfl
@[simp] theorem State.emit_fl (v : Word) : (s.emit v).fl = s.fl := rfl
@[simp] theorem State.emit_pc (v : Word) : (s.emit v).pc = s.pc := rfl
@[simp] theorem State.emit_run (v : Word) : (s.emit v).run = s.run := rfl
@[simp] theorem State.emit_mem (v : Word) : (s.emit v).mem = s.mem := rfl
@[simp] theorem State.emit_out (v : Word) : (s.emit v).out = s.out ++ [v] := rfl

/-! `State.setPc` writes `pc` alone. -/
@[simp] theorem State.setPc_regs (target : Nat) : (s.setPc target).regs = s.regs := rfl
@[simp] theorem State.setPc_fl (target : Nat) : (s.setPc target).fl = s.fl := rfl
@[simp] theorem State.setPc_pc (target : Nat) : (s.setPc target).pc = target := rfl
@[simp] theorem State.setPc_run (target : Nat) : (s.setPc target).run = s.run := rfl
@[simp] theorem State.setPc_mem (target : Nat) : (s.setPc target).mem = s.mem := rfl
@[simp] theorem State.setPc_out (target : Nat) : (s.setPc target).out = s.out := rfl

/-! `State.advance` writes `pc` alone. -/
@[simp] theorem State.advance_regs (n : Nat) : (s.advance n).regs = s.regs := rfl
@[simp] theorem State.advance_fl (n : Nat) : (s.advance n).fl = s.fl := rfl
@[simp] theorem State.advance_pc (n : Nat) : (s.advance n).pc = s.pc + n := rfl
@[simp] theorem State.advance_run (n : Nat) : (s.advance n).run = s.run := rfl
@[simp] theorem State.advance_mem (n : Nat) : (s.advance n).mem = s.mem := rfl
@[simp] theorem State.advance_out (n : Nat) : (s.advance n).out = s.out := rfl

/-! `State.halt` writes `run` alone. -/
@[simp] theorem State.halt_regs : (s.halt).regs = s.regs := rfl
@[simp] theorem State.halt_fl : (s.halt).fl = s.fl := rfl
@[simp] theorem State.halt_pc : (s.halt).pc = s.pc := rfl
@[simp] theorem State.halt_run : (s.halt).run = .halted := rfl
@[simp] theorem State.halt_mem : (s.halt).mem = s.mem := rfl
@[simp] theorem State.halt_out : (s.halt).out = s.out := rfl

/-! `State.takeFault` writes `run` alone. -/
@[simp] theorem State.takeFault_regs (r : Reason) : (s.takeFault r).regs = s.regs := rfl
@[simp] theorem State.takeFault_fl (r : Reason) : (s.takeFault r).fl = s.fl := rfl
@[simp] theorem State.takeFault_pc (r : Reason) : (s.takeFault r).pc = s.pc := rfl
@[simp] theorem State.takeFault_run (r : Reason) : (s.takeFault r).run = .faulted r := rfl
@[simp] theorem State.takeFault_mem (r : Reason) : (s.takeFault r).mem = s.mem := rfl
@[simp] theorem State.takeFault_out (r : Reason) : (s.takeFault r).out = s.out := rfl

end Sys2Proof.Machine
end

