-- ==== Sys2Proof/Laws/Ops.lean ====
section
/-! SUPPORT. For each shared operation, once, everything it can do. -/

namespace Sys2Proof.Machine

variable (s : State)

/-! ### Accesses with a range check -/

theorem State.memRead_of_lt (addr : Nat) (h : addr < Config.memSize) : s.memRead addr = .ok (s.mem.read addr) := by
  simp [State.memRead, h]

theorem State.memRead_of_le (addr : Nat) (h : Config.memSize ≤ addr) :
    s.memRead addr = .error (.outOfBounds (.memory addr)) := by
  simp [State.memRead, Nat.not_lt.mpr h]

theorem State.memRead_eq_ok {addr : Nat} {b : Byte} (h : s.memRead addr = .ok b) :
    addr < Config.memSize ∧ b = s.mem.read addr := by
  unfold State.memRead at h
  split at h
  · cases h
    exact ⟨‹_›, rfl⟩
  · cases h

theorem State.memRead_eq_error {addr : Nat} {r : Reason} (h : s.memRead addr = .error r) :
    Config.memSize ≤ addr ∧ r = .outOfBounds (.memory addr) := by
  unfold State.memRead at h
  split at h
  · cases h
  · cases h
    exact ⟨Nat.not_lt.mp ‹_›, rfl⟩

theorem State.regRead_of_lt (i : Byte) (h : i.toNat < Config.nregs) : s.regRead i = .ok s.regs[i.toNat] := by
  simp only [State.regRead, dif_pos h]

theorem State.regRead_of_le (i : Byte) (h : Config.nregs ≤ i.toNat) :
    s.regRead i = .error (.outOfBounds (.register i)) := by
  simp only [State.regRead, dif_neg (Nat.not_lt.mpr h)]

theorem State.regWrite_of_lt (i : Byte) (v : Word) (h : i.toNat < Config.nregs) :
    s.regWrite i v = .ok { s with regs := s.regs.set i.toNat v h } := by
  simp only [State.regWrite, dif_pos h]

theorem State.regWrite_of_le (i : Byte) (v : Word) (h : Config.nregs ≤ i.toNat) :
    s.regWrite i v = .error (.outOfBounds (.register i)) := by
  simp only [State.regWrite, dif_neg (Nat.not_lt.mpr h)]

/-! ### Operand forms -/

/-- At `XLEN = 8` the zero extension of an immediate is the identity. -/
@[simp] theorem immediate_eq (b : Byte) : immediate b = b := by simp [immediate]

theorem State.sources_of_lt (a b : Byte) (ha : a.toNat < Config.nregs) (hb : b.toNat < Config.nregs) :
    s.sources a b = .ok (s.regs[a.toNat], s.regs[b.toNat]) := by
  simp only [State.sources, s.regRead_of_lt a ha, s.regRead_of_lt b hb]

/-- `a` is asked for first: its index is the one reported, whatever `b` is. -/
theorem State.sources_of_le_first (a b : Byte) (ha : Config.nregs ≤ a.toNat) :
    s.sources a b = .error (.outOfBounds (.register a)) := by
  simp only [State.sources, s.regRead_of_le a ha]

theorem State.sources_of_le_second (a b : Byte) (ha : a.toNat < Config.nregs) (hb : Config.nregs ≤ b.toNat) :
    s.sources a b = .error (.outOfBounds (.register b)) := by
  simp only [State.sources, s.regRead_of_lt a ha, s.regRead_of_le b hb]

theorem State.jump_of_lt (a : Byte) (ha : a.toNat < Config.nregs) :
    s.jump a = .ok (s.setPc s.regs[a.toNat].toNat) := by
  simp only [State.jump, State.jumpTarget, s.regRead_of_lt a ha]

theorem State.jump_of_le (a : Byte) (ha : Config.nregs ≤ a.toNat) :
    s.jump a = .error (.outOfBounds (.register a)) := by
  simp only [State.jump, State.jumpTarget, s.regRead_of_le a ha]

@[simp] theorem State.jumpIf_true (a : Byte) : s.jumpIf true a = s.jump a := rfl

@[simp] theorem State.jumpIf_false (a : Byte) : s.jumpIf false a = .ok (s.advance 2) := rfl

/-! ### The ALU -/

/-- With both indices in range an arithmetic operation writes its value to `x[a]` and nothing else. -/
theorem State.aluApply_value (op : AluOp) (a b : Byte) (v : Word) (ha : a.toNat < Config.nregs)
    (hb : b.toNat < Config.nregs) (hv : alu op s.regs[a.toNat] s.regs[b.toNat] = .ok (.value v)) :
    s.aluApply op a b = .ok { s with regs := s.regs.set a.toNat v ha } := by
  simp only [State.aluApply, s.sources_of_lt a b ha hb, hv, s.regWrite_of_lt a v ha]

/-- With both indices in range a comparison writes the flag and nothing else. -/
theorem State.aluApply_flag (op : AluOp) (a b : Byte) (bits : BitVec 3) (ha : a.toNat < Config.nregs)
    (hb : b.toNat < Config.nregs) (hv : alu op s.regs[a.toNat] s.regs[b.toNat] = .ok (.flag bits)) :
    s.aluApply op a b = .ok (s.setFlag bits) := by
  simp only [State.aluApply, s.sources_of_lt a b ha hb, hv]

theorem State.aluApply_of_le_first (op : AluOp) (a b : Byte) (ha : Config.nregs ≤ a.toNat) :
    s.aluApply op a b = .error (.outOfBounds (.register a)) := by
  simp only [State.aluApply, s.sources_of_le_first a b ha]

theorem State.aluApply_of_le_second (op : AluOp) (a b : Byte) (ha : a.toNat < Config.nregs)
    (hb : Config.nregs ≤ b.toNat) : s.aluApply op a b = .error (.outOfBounds (.register b)) := by
  simp only [State.aluApply, s.sources_of_le_second a b ha hb]

/-- The three outcomes of a comparison are the three one-bit values of the flag. -/
theorem compareFlag_cases (va vb : Word) :
    (va = vb ∧ compareFlag va vb = Config.flE) ∨ (va.toNat < vb.toNat ∧ compareFlag va vb = Config.flL) ∨
    (vb.toNat < va.toNat ∧ compareFlag va vb = Config.flG) := by
  by_cases he : va = vb
  · exact .inl ⟨he, if_pos he⟩
  · by_cases hl : va.toNat < vb.toNat
    · exact .inr (.inl ⟨hl, by simp only [compareFlag, if_neg he, if_pos hl]⟩)
    · have hne : va.toNat ≠ vb.toNat := fun h => he (BitVec.eq_of_toNat_eq h)
      exact .inr (.inr ⟨by omega, by simp only [compareFlag, if_neg he, if_neg hl]⟩)

/-! The E bit of each of the three flag values, and of the reset value. -/

@[simp] theorem equalBit_flE : equalBit Config.flE = true := by decide
@[simp] theorem equalBit_flG : equalBit Config.flG = false := by decide
@[simp] theorem equalBit_flL : equalBit Config.flL = false := by decide
@[simp] theorem equalBit_flReset : equalBit Config.flReset = false := by decide

/-! ### How a step ends -/

@[simp] theorem finish_ok (s' : State) : finish s (.ok s') = .next s' := rfl

@[simp] theorem finish_error (r : Reason) : finish s (.error r) = .next (s.takeFault r) := rfl

/-- An instruction always answers a next state: the one its actions built, or fault entry. -/
theorem finish_cases (e : Except Reason State) :
    (∃ s', e = .ok s' ∧ finish s e = .next s') ∨ (∃ r, e = .error r ∧ finish s e = .next (s.takeFault r)) := by
  cases e with
  | ok s' => exact .inl ⟨s', rfl, rfl⟩
  | error r => exact .inr ⟨r, rfl, rfl⟩

end Sys2Proof.Machine
end

