-- ==== Sys2Proof/Laws/PerInstr.lean ====
section
/-! SUPPORT. A statement about every instruction, made per constructor: its bytes are its opcode and its operands, as many as
its size, between 1 and 3 (spec/30_encoding.md R60). -/

namespace Sys2Proof.Laws.EncodedSize

/-- The instruction's encoding starts with its opcode, has as many bytes as the fetch reads, and 1 to 3 of them. -/
def Statement (i : Instr) : Prop :=
  (encode i).head? = some i.opcode ∧ (encode i).length = i.size ∧ 1 ≤ i.size ∧ i.size ≤ 3

theorem ldi (a imm : Byte) : Statement (.ldi a imm) := by simp [Statement, encode, Instr.operands, Instr.size]
theorem prn (a : Byte) : Statement (.prn a) := by simp [Statement, encode, Instr.operands, Instr.size]
theorem add (a b : Byte) : Statement (.add a b) := by simp [Statement, encode, Instr.operands, Instr.size]
theorem mul (a b : Byte) : Statement (.mul a b) := by simp [Statement, encode, Instr.operands, Instr.size]
theorem cmp (a b : Byte) : Statement (.cmp a b) := by simp [Statement, encode, Instr.operands, Instr.size]
theorem jmp (a : Byte) : Statement (.jmp a) := by simp [Statement, encode, Instr.operands, Instr.size]
theorem jeq (a : Byte) : Statement (.jeq a) := by simp [Statement, encode, Instr.operands, Instr.size]
theorem jne (a : Byte) : Statement (.jne a) := by simp [Statement, encode, Instr.operands, Instr.size]
theorem hlt : Statement .hlt := by simp [Statement, encode, Instr.operands, Instr.size]
theorem push : Statement .push := by simp [Statement, encode, Instr.operands, Instr.size]
theorem pop : Statement .pop := by simp [Statement, encode, Instr.operands, Instr.size]
theorem call : Statement .call := by simp [Statement, encode, Instr.operands, Instr.size]
theorem ret : Statement .ret := by simp [Statement, encode, Instr.operands, Instr.size]
theorem unknown (op : Byte) : Statement (.unknown op) := by simp [Statement, encode, Instr.operands, Instr.size]

end Sys2Proof.Laws.EncodedSize
end

