-- ==== Sys2Proof/Laws/Step.lean ====
section
/-! SUPPORT. What one step can do, said once. -/

namespace Sys2Proof.Machine

/-- A running state steps by fetching, decoding and executing. -/
theorem step_running (s : State) (h : s.run = .running) : step s = runningStep s := by
  simp only [step, loopPass, h]

/-- If a step answers a next state, the state was running, and the step is the decoded instruction's or the entry of the
fault its fetch raised. -/
theorem step_cases {s t : State} (h : step s = .next t) :
    s.run = .running ∧
    ((∃ i, fetchInstr s = .ok i ∧ exec i s = .next t) ∨ (∃ r, fetchInstr s = .error r ∧ t = s.takeFault r)) := by
  simp only [step, loopPass] at h
  split at h
  · refine ⟨‹_›, ?_⟩
    simp only [runningStep] at h
    split at h
    · exact .inl ⟨_, ‹_›, h⟩
    · refine .inr ⟨_, ‹_›, ?_⟩
      cases h
      rfl
  · cases h
  · cases h

/-- Every meaning is one `finish`: its reads, checks and writes either build a state or raise. -/
theorem exec_eq_finish (i : Instr) (s : State) : ∃ e, exec i s = finish s e := by
  cases i with
  | hlt => exact ⟨.ok s.halt, rfl⟩
  | push => exact ⟨.error (.unknownInstruction Config.opcPush), rfl⟩
  | pop => exact ⟨.error (.unknownInstruction Config.opcPop), rfl⟩
  | call => exact ⟨.error (.unknownInstruction Config.opcCall), rfl⟩
  | ret => exact ⟨.error (.unknownInstruction Config.opcRet), rfl⟩
  | unknown op => exact ⟨.error (.unknownInstruction op), rfl⟩
  | _ => exact ⟨_, rfl⟩

/-- Everything the fetch of an instruction can give, with the bytes it read: a byte that is not implemented, a HLT, one of
the four instructions with one operand byte, or one of the four with two. -/
theorem fetch_cases {s : State} {i : Instr} (h : fetchInstr s = .ok i) :
    ∃ op, s.memRead s.pc = .ok op ∧
      ((op ∉ Config.implementedOpcodes ∧ i = undecodedByte op ∧ i.size = 1) ∨
       (op = Config.opcHlt ∧ i = .hlt) ∨
       (∃ a, s.memRead (s.pc + 1) = .ok a ∧
         ((op = Config.opcPrn ∧ i = .prn a) ∨ (op = Config.opcJmp ∧ i = .jmp a) ∨
          (op = Config.opcJeq ∧ i = .jeq a) ∨ (op = Config.opcJne ∧ i = .jne a))) ∨
       (∃ a b, s.memRead (s.pc + 1) = .ok a ∧ s.memRead (s.pc + 2) = .ok b ∧
         ((op = Config.opcLdi ∧ i = .ldi a b) ∨ (op = Config.opcAdd ∧ i = .add a b) ∨
          (op = Config.opcMul ∧ i = .mul a b) ∨ (op = Config.opcCmp ∧ i = .cmp a b)))) := by
  simp only [fetchInstr, decodeWith, Nat.add_zero] at h
  split at h
  · cases h
  · rename_i op hop
    refine ⟨op, hop, ?_⟩
    rcases lookupOpcode_cases op with h1 | ⟨h0, h1⟩
    · simp only [Config.implementedOpcodes, List.mem_cons, List.not_mem_nil, or_false] at h1
      rcases h1 with rfl | rfl | rfl | rfl | rfl | rfl | rfl | rfl | rfl <;>
        simp only [lookup_ldi, lookup_prn, lookup_add, lookup_mul, lookup_cmp, lookup_jmp, lookup_jeq, lookup_jne,
          lookup_hlt] at h
      all_goals first
        | (split at h
           · cases h
           · split at h
             · cases h
             · cases h; simp_all)
        | (split at h
           · cases h
           · cases h; simp_all)
        | (cases h; simp)
    · rw [h1] at h
      cases h
      refine .inl ⟨h0, rfl, ?_⟩
      rcases undecodedByte_cases op with ⟨_, e⟩ | ⟨_, e⟩ | ⟨_, e⟩ | ⟨_, e⟩ | ⟨_, e⟩ <;> rw [e] <;> rfl

/-- The register operands of an instruction that its meaning asks the register file for, in their order. -/
def askedRegisters (i : Instr) (fl : BitVec 3) : List Byte :=
  match i with
  | .ldi a _ | .prn a | .jmp a => [a]
  | .add a b | .mul a b | .cmp a b => [a, b]
  | .jeq a => if equalBit fl then [a] else []
  | .jne a => if equalBit fl then [] else [a]
  | .hlt | .push | .pop | .call | .ret | .unknown _ => []

/-- Everything a meaning can do to a state: fault entry (an asked-for register out of range, or an opcode that is not
implemented), halt, one register and `pc`, the flag and `pc`, the output and `pc`, or `pc` alone. -/
theorem exec_cases {i : Instr} {s t : State} (h : exec i s = .next t) :
    (∃ j ∈ askedRegisters i s.fl, Config.nregs ≤ j.toNat ∧ t = s.takeFault (.outOfBounds (.register j))) ∨
    (i ∈ [Instr.push, .pop, .call, .ret, .unknown i.opcode] ∧ t = s.takeFault (.unknownInstruction i.opcode)) ∨
    (i = .hlt ∧ t = s.halt) ∨
    (∃ (a : Byte) (ha : a.toNat < Config.nregs) (v : Word), (i = .ldi a v ∨ ∃ b, i = .add a b ∨ i = .mul a b) ∧
      t = State.advance { s with regs := s.regs.set a.toNat v ha } 3) ∨
    (∃ (a b : Byte) (_ : a.toNat < Config.nregs) (_ : b.toNat < Config.nregs), i = .cmp a b ∧
      t = (s.setFlag (compareFlag s.regs[a.toNat] s.regs[b.toNat])).advance 3) ∨
    (∃ (a : Byte) (_ : a.toNat < Config.nregs), i = .prn a ∧ t = (s.emit s.regs[a.toNat]).advance 2) ∨
    (∃ (a : Byte) (_ : a.toNat < Config.nregs),
      (i = .jmp a ∨ (i = .jeq a ∧ equalBit s.fl = true) ∨ (i = .jne a ∧ equalBit s.fl = false)) ∧
      t = s.setPc s.regs[a.toNat].toNat) ∨
    (∃ a : Byte, ((i = .jeq a ∧ equalBit s.fl = false) ∨ (i = .jne a ∧ equalBit s.fl = true)) ∧ t = s.advance 2) := by
  cases i with
  | ldi a imm =>
    rcases Nat.lt_or_ge a.toNat Config.nregs with ha | ha
    · simp only [exec, execLdi, s.regWrite_of_lt a _ ha, immediate_eq, finish_ok, Host.Outcome.next.injEq] at h
      exact .inr (.inr (.inr (.inl ⟨a, ha, imm, .inl rfl, h.symm⟩)))
    · simp only [exec, execLdi, s.regWrite_of_le a _ ha, finish_error, Host.Outcome.next.injEq] at h
      exact .inl ⟨a, by simp [askedRegisters], ha, h.symm⟩
  | prn a =>
    rcases Nat.lt_or_ge a.toNat Config.nregs with ha | ha
    · simp only [exec, execPrn, s.regRead_of_lt a ha, finish_ok, Host.Outcome.next.injEq] at h
      exact .inr (.inr (.inr (.inr (.inr (.inl ⟨a, ha, rfl, h.symm⟩)))))
    · simp only [exec, execPrn, s.regRead_of_le a ha, finish_error, Host.Outcome.next.injEq] at h
      exact .inl ⟨a, by simp [askedRegisters], ha, h.symm⟩
  | add a b =>
    rcases Nat.lt_or_ge a.toNat Config.nregs with ha | ha
    · rcases Nat.lt_or_ge b.toNat Config.nregs with hb | hb
      · simp only [exec, execAdd, aluInstruction, s.aluApply_value .add a b _ ha hb rfl, finish_ok,
          Host.Outcome.next.injEq] at h
        exact .inr (.inr (.inr (.inl ⟨a, ha, _, .inr ⟨b, .inl rfl⟩, h.symm⟩)))
      · simp only [exec, execAdd, aluInstruction, s.aluApply_of_le_second .add a b ha hb, finish_error,
          Host.Outcome.next.injEq] at h
        exact .inl ⟨b, by simp [askedRegisters], hb, h.symm⟩
    · simp only [exec, execAdd, aluInstruction, s.aluApply_of_le_first .add a b ha, finish_error,
        Host.Outcome.next.injEq] at h
      exact .inl ⟨a, by simp [askedRegisters], ha, h.symm⟩
  | mul a b =>
    rcases Nat.lt_or_ge a.toNat Config.nregs with ha | ha
    · rcases Nat.lt_or_ge b.toNat Config.nregs with hb | hb
      · simp only [exec, execMul, aluInstruction, s.aluApply_value .mul a b _ ha hb rfl, finish_ok,
          Host.Outcome.next.injEq] at h
        exact .inr (.inr (.inr (.inl ⟨a, ha, _, .inr ⟨b, .inr rfl⟩, h.symm⟩)))
      · simp only [exec, execMul, aluInstruction, s.aluApply_of_le_second .mul a b ha hb, finish_error,
          Host.Outcome.next.injEq] at h
        exact .inl ⟨b, by simp [askedRegisters], hb, h.symm⟩
    · simp only [exec, execMul, aluInstruction, s.aluApply_of_le_first .mul a b ha, finish_error,
        Host.Outcome.next.injEq] at h
      exact .inl ⟨a, by simp [askedRegisters], ha, h.symm⟩
  | cmp a b =>
    rcases Nat.lt_or_ge a.toNat Config.nregs with ha | ha
    · rcases Nat.lt_or_ge b.toNat Config.nregs with hb | hb
      · simp only [exec, execCmp, aluInstruction, s.aluApply_flag .cmp a b _ ha hb rfl, finish_ok,
          Host.Outcome.next.injEq] at h
        exact .inr (.inr (.inr (.inr (.inl ⟨a, b, ha, hb, rfl, h.symm⟩))))
      · simp only [exec, execCmp, aluInstruction, s.aluApply_of_le_second .cmp a b ha hb, finish_error,
          Host.Outcome.next.injEq] at h
        exact .inl ⟨b, by simp [askedRegisters], hb, h.symm⟩
    · simp only [exec, execCmp, aluInstruction, s.aluApply_of_le_first .cmp a b ha, finish_error,
        Host.Outcome.next.injEq] at h
      exact .inl ⟨a, by simp [askedRegisters], ha, h.symm⟩
  | jmp a =>
    rcases Nat.lt_or_ge a.toNat Config.nregs with ha | ha
    · simp only [exec, execJmp, s.jump_of_lt a ha, finish_ok, Host.Outcome.next.injEq] at h
      exact .inr (.inr (.inr (.inr (.inr (.inr (.inl ⟨a, ha, .inl rfl, h.symm⟩))))))
    · simp only [exec, execJmp, s.jump_of_le a ha, finish_error, Host.Outcome.next.injEq] at h
      exact .inl ⟨a, by simp [askedRegisters], ha, h.symm⟩
  | jeq a =>
    cases he : equalBit s.fl with
    | true =>
      rcases Nat.lt_or_ge a.toNat Config.nregs with ha | ha
      · simp only [exec, execJeq, he, State.jumpIf_true, s.jump_of_lt a ha, finish_ok, Host.Outcome.next.injEq] at h
        exact .inr (.inr (.inr (.inr (.inr (.inr (.inl ⟨a, ha, .inr (.inl ⟨rfl, rfl⟩), h.symm⟩))))))
      · simp only [exec, execJeq, he, State.jumpIf_true, s.jump_of_le a ha, finish_error, Host.Outcome.next.injEq] at h
        exact .inl ⟨a, by simp [askedRegisters, he], ha, h.symm⟩
    | false =>
      simp only [exec, execJeq, he, State.jumpIf_false, finish_ok, Host.Outcome.next.injEq] at h
      exact .inr (.inr (.inr (.inr (.inr (.inr (.inr ⟨a, .inl ⟨rfl, rfl⟩, h.symm⟩))))))
  | jne a =>
    cases he : equalBit s.fl with
    | false =>
      rcases Nat.lt_or_ge a.toNat Config.nregs with ha | ha
      · simp only [exec, execJne, he, Bool.not_false, State.jumpIf_true, s.jump_of_lt a ha, finish_ok,
          Host.Outcome.next.injEq] at h
        exact .inr (.inr (.inr (.inr (.inr (.inr (.inl ⟨a, ha, .inr (.inr ⟨rfl, rfl⟩), h.symm⟩))))))
      · simp only [exec, execJne, he, Bool.not_false, State.jumpIf_true, s.jump_of_le a ha, finish_error,
          Host.Outcome.next.injEq] at h
        exact .inl ⟨a, by simp [askedRegisters, he], ha, h.symm⟩
    | true =>
      simp only [exec, execJne, he, Bool.not_true, State.jumpIf_false, finish_ok, Host.Outcome.next.injEq] at h
      exact .inr (.inr (.inr (.inr (.inr (.inr (.inr ⟨a, .inr ⟨rfl, rfl⟩, h.symm⟩))))))
  | hlt =>
    cases h
    exact .inr (.inr (.inl ⟨rfl, rfl⟩))
  | push =>
    cases h
    exact .inr (.inl ⟨by simp, rfl⟩)
  | pop =>
    cases h
    exact .inr (.inl ⟨by simp, rfl⟩)
  | call =>
    cases h
    exact .inr (.inl ⟨by simp, rfl⟩)
  | ret =>
    cases h
    exact .inr (.inl ⟨by simp, rfl⟩)
  | unknown op =>
    cases h
    exact .inr (.inl ⟨by simp [Instr.opcode], rfl⟩)

end Sys2Proof.Machine
end

