-- ==== Sys2Proof/Tests/Slice0.lean ====
section
/-! SUPPORT. Tests: the well-formedness smoke test, one word a constructor written out from spec/30_encoding.md, single steps
whose expected results are the vectors V<n> of spec/95_test_vectors.md, and a witness for the hypotheses of every statement. -/

namespace Sys2Proof.Tests

open Sys2Proof.Machine

/-! ### Well-formedness: the one check refuses a named byte in the row `(unknown)` -/

theorem test_wf_refuses_implemented_byte : (Instr.unknown 0x01).wellFormed = false := by decide
theorem test_wf_refuses_reserved_byte : (Instr.unknown 0x45).wellFormed = false := by decide
theorem test_wf_accepts_unnamed_byte : (Instr.unknown 0xFF).wellFormed = true := by decide
theorem test_wf_accepts_any_register_byte : (Instr.add 255 8).wellFormed = true := by decide

/-! ### Decoding: bits written out from 30_encoding.md, byte 0 first -/

/-- What the decoder reads, without the bytes left over. -/
def decoded (bytes : List Byte) : Option Instr :=
  match decode bytes with
  | .ok (i, _) => some i
  | .error _ => none

theorem test_decode_ldi : decoded [0b10000010, 0b00000101, 0b11110000] = some (.ldi 5 240) := by decide
theorem test_decode_prn : decoded [0b01000111, 0b00000011] = some (.prn 3) := by decide
theorem test_decode_add : decoded [0b10100000, 0b00000001, 0b00000110] = some (.add 1 6) := by decide
theorem test_decode_mul : decoded [0b10100010, 0b00000010, 0b00000111] = some (.mul 2 7) := by decide
theorem test_decode_cmp : decoded [0b10100111, 0b00000100, 0b00000000] = some (.cmp 4 0) := by decide
theorem test_decode_jmp : decoded [0b01010100, 0b00000001] = some (.jmp 1) := by decide
theorem test_decode_jeq : decoded [0b01010101, 0b11001000] = some (.jeq 200) := by decide
theorem test_decode_jne : decoded [0b01010110, 0b00000111] = some (.jne 7) := by decide
theorem test_decode_hlt : decoded [0b00000001] = some .hlt := by decide
theorem test_decode_push : decoded [0b01000101] = some .push := by decide
theorem test_decode_pop : decoded [0b01000110] = some .pop := by decide
theorem test_decode_call : decoded [0b01010000] = some .call := by decide
theorem test_decode_ret : decoded [0b00010001] = some .ret := by decide
/-- R70: top bits 10 do not make an unknown byte a 3-byte instruction. -/
theorem test_decode_unknown_takes_one_byte : decode [0b10000000, 1, 2] = .ok (.unknown 0x80, [1, 2]) := rfl
theorem test_decode_missing_operand : decode [0b10100000, 1] = .error (.missingByte 2) := rfl
/-- The two columns "binary" and "hex" of R68 are the same values. -/
theorem test_opcode_columns_agree : Config.implementedOpcodes ++ Config.reservedOpcodes =
    [0x82, 0x47, 0xA0, 0xA2, 0xA7, 0x54, 0x55, 0x56, 0x01, 0x45, 0x46, 0x50, 0x11] := by decide

/-! ### Single steps (95_test_vectors.md part 2) -/

/-- A running state with these registers, flag and `pc`, and these bytes at `pc`; everything else as after reset. -/
def at' (regs : Vector Word 8) (fl : BitVec 3) (pc : Nat) (bytes : List Byte) : State :=
  { State.reset with regs := regs, fl := fl, pc := pc, mem := Memory.place [] pc bytes }

/-- Registers with `x[0]`, `x[1]`, `x[2]`, `x[3]` set. -/
def regs4 (r0 r1 r2 r3 : Word) : Vector Word 8 := #v[r0, r1, r2, r3, 0, 0, 0, 0]

/-- Whether the step of a state gives a next state with a property. -/
def stepGives (s : State) (p : State → Bool) : Bool :=
  match step s with
  | .next t => p t
  | _ => false

/-- Whether the step of a state gives exactly that state with the fault in `run`. -/
def faultsWith (s : State) (r : Reason) : Bool :=
  stepGives s fun t => t = { s with run := .faulted r }

/-- V2. -/
theorem test_ldi_top_register : stepGives (at' (regs4 0 0 0 0) 0 0 [0x82, 0x07, 0xFF])
    (fun t => t.regs = #v[0, 0, 0, 0, 0, 0, 0, 255] ∧ t.pc = 3) = true := by decide
/-- V8: the memory fault wins over the register fault. -/
theorem test_ldi_memory_fault_first : faultsWith (at' (regs4 0 0 0 0) 0 254 [0x82, 0x09]) (.outOfBounds (.memory 256)) = true := by
  decide
/-- V12. -/
theorem test_prn_emits : stepGives (at' (regs4 0 0 255 0) 0 0 [0x47, 0x02]) (fun t => t.out = [255] ∧ t.pc = 2) = true := by decide
/-- V13. -/
theorem test_prn_bad_register : faultsWith (at' (regs4 0 0 0 0) 0 0 [0x47, 0x08]) (.outOfBounds (.register 8)) = true := by decide
/-- V16, the flag kept as in V15. -/
theorem test_add_wraps : stepGives (at' (regs4 200 100 0 0) 0b100 0 [0xA0, 0, 1])
    (fun t => t.regs = regs4 44 100 0 0 ∧ t.fl = 0b100 ∧ t.pc = 3) = true := by decide
/-- V25: `a` is reported before `b`. -/
theorem test_add_reports_first_index : faultsWith (at' (regs4 0 0 0 0) 0 0 [0xA0, 9, 10]) (.outOfBounds (.register 9)) = true := by
  decide
/-- V33: `a = b` squares and keeps the low byte of 10000. -/
theorem test_mul_squares : stepGives (at' (regs4 0 100 0 0) 0 0 [0xA2, 1, 1]) (fun t => t.regs = regs4 0 16 0 0) = true := by decide
/-- V34. -/
theorem test_mul_bad_second : faultsWith (at' (regs4 77 0 0 0) 0 0 [0xA2, 0, 8]) (.outOfBounds (.register 8)) = true := by decide
/-- V39: unsigned, 128 > 127; the old flag is overwritten. -/
theorem test_cmp_unsigned : stepGives (at' (regs4 128 127 0 0) 0b001 0 [0xA7, 0, 1]) (fun t => t.fl = 0b010 ∧ t.pc = 3) = true := by
  decide
/-- V35. -/
theorem test_cmp_equal_overwrites : stepGives (at' (regs4 5 5 0 0) 0b100 12 [0xA7, 0, 1]) (fun t => t.fl = 0b001 ∧ t.pc = 15) = true := by
  decide
/-- V48. -/
theorem test_jmp_top : stepGives (at' (regs4 255 0 0 0) 0 3 [0x54, 0]) (fun t => t.pc = 255) = true := by decide
/-- V49. -/
theorem test_jmp_bad_register : faultsWith (at' (regs4 0 0 0 0) 0 3 [0x54, 8]) (.outOfBounds (.register 8)) = true := by decide
/-- V52: greater-than does not take JEQ. -/
theorem test_jeq_untaken : stepGives (at' (regs4 0 0 0 20) 0b010 15 [0x55, 3]) (fun t => t.pc = 17) = true := by decide
/-- V59: taken, so its register byte 200 is checked. -/
theorem test_jeq_taken_bad_register : faultsWith (at' (regs4 0 0 0 0) 0b001 0 [0x55, 0xC8]) (.outOfBounds (.register 200)) = true := by
  decide
/-- V54. -/
theorem test_jne_taken : stepGives (at' (regs4 0 0 0 12) 0b010 20 [0x56, 3]) (fun t => t.pc = 12) = true := by decide
/-- V61: untaken, so its register byte 200 is not checked. -/
theorem test_jne_untaken_unchecked : stepGives (at' (regs4 0 0 0 0) 0b001 0 [0x56, 0xC8]) (fun t => t.pc = 2) = true := by decide
/-- V63. -/
theorem test_hlt_in_place : stepGives (at' (regs4 0 0 0 0) 0 11 [0x01]) (fun t => t.run = .halted ∧ t.pc = 11) = true := by decide
/-- V71. -/
theorem test_halted_takes_no_step : step { State.reset with run := .halted } = .fault .halted := rfl
/-- V42: PUSH in the last cell fetches no operand. -/
theorem test_push_last_cell : faultsWith (at' (regs4 0 0 0 0) 0 255 [0x45]) (.unknownInstruction 0x45) = true := by decide
/-- V65. -/
theorem test_pop_faults : faultsWith (at' (regs4 0 0 0 0) 0 0 [0x46, 0]) (.unknownInstruction 0x46) = true := by decide
/-- V66. -/
theorem test_call_faults : faultsWith (at' (regs4 0 0 0 0) 0 0 [0x50, 0]) (.unknownInstruction 0x50) = true := by decide
/-- V67. -/
theorem test_ret_faults : faultsWith (at' (regs4 0 0 0 0) 0 0 [0x11]) (.unknownInstruction 0x11) = true := by decide
/-- V70. -/
theorem test_unknown_top_bits : faultsWith (at' (regs4 0 0 0 0) 0 0 [0x80, 0, 0]) (.unknownInstruction 0x80) = true := by decide
/-- V68: an unwritten cell is no no-operation. -/
theorem test_unknown_zero_after_reset : faultsWith State.reset (.unknownInstruction 0x00) = true := by decide
/-- V40: `pc` does not wrap at the top. -/
theorem test_fetch_beyond_memory : faultsWith (at' (regs4 0 0 0 0) 0 256 []) (.outOfBounds (.memory 256)) = true := by decide
/-- V62: the operand byte of an untaken jump is fetched. -/
theorem test_fetch_untaken_operand : faultsWith (at' (regs4 0 0 0 0) 0 255 [0x55]) (.outOfBounds (.memory 256)) = true := by decide
/-- P4's launch (R184): the image at address 0, zeros after it. -/
theorem test_launch_places_bytes :
    (match launch [0x82, 0x00, 0x01] with
      | .ok s => decide (s.mem.read 0 = 0x82 ∧ s.mem.read 2 = 1 ∧ s.mem.read 3 = 0)
      | .error _ => false) = true := by decide
/-- V11's printed line `0` and V12's `255`. -/
theorem test_rendered_lines : renderLine 0 = ['0'] ∧ renderLine 255 = ['2', '5', '5'] := by decide
/-- A table word is fetched at `pc`, its second byte in bits 15..8. -/
theorem test_fetch_word : fetchInstr (State.reset.withFetchWord 16 0x0547) = .ok (.prn 5) := rfl

/-! ### Witnesses: a concrete state and operands that meet the hypotheses of each statement, at the boundary of each clause -/

/-- A running state with LDI R0,8 at address 0. -/
def ldiState : State := at' (regs4 0 0 0 0) 0 0 [0x82, 0x00, 0x08]

/-- A running state at the last cell, which holds LDI. -/
def lastCell : State := at' (regs4 0 0 0 0) 0 255 [0x82]

/-- A running state with `pc` just past the last cell. -/
def pastEnd : State := at' (regs4 0 0 0 0) 0 256 []

/-- A running state with JMP R0 at address 3 and `x[0] = 3`. -/
def selfJump : State := at' (regs4 3 0 0 0) 0 3 [0x54, 0x00]

/-- A running state whose E bit is set. -/
def equalState : State := at' (regs4 5 5 9 20) 0b001 0 []

theorem witness_DecodeInvertsEncode :
    (Instr.unknown 0xFF).wellFormed = true ∧ (Instr.ldi 255 255).wellFormed = true := by decide
theorem witness_EncodeInvertsDecode : decode [0x82, 0, 8, 1] = .ok (.ldi 0 8, [1]) := rfl
theorem witness_DecodingDependsOnTheBytesAtPcAlone :
    (∀ k < 3, ldiState.memRead (ldiState.pc + k) = { ldiState with fl := 0b100 }.memRead (ldiState.pc + k)) ∧
    fetchInstr ldiState = .ok (.ldi 0 8) ∧ ldiState.memRead ldiState.pc = .ok Config.opcLdi ∧
    fetchInstr selfJump = .ok (.jmp 0) ∧ selfJump.memRead selfJump.pc = .ok Config.opcJmp ∧
    fetchInstr (State.reset.withFetchWord 8 1) = .ok .hlt ∧
    (State.reset.withFetchWord 8 1).memRead 0 = .ok Config.opcHlt :=
  ⟨fun _ _ => rfl, rfl, rfl, rfl, rfl, rfl, rfl⟩
theorem witness_StepRunsTheDecodedInstruction :
    ldiState.run = .running ∧
    (∀ (k : Nat) (h : k < ([0x82, 0x00, 0x08] : List Byte).length),
      ldiState.memRead (ldiState.pc + k) = .ok ([0x82, 0x00, 0x08] : List Byte)[k]) ∧
    decode [0x82, 0x00, 0x08] = .ok (.ldi 0 8, []) := by
  refine ⟨rfl, fun k h => ?_, rfl⟩
  match k, h with
  | 0, _ => rfl
  | 1, _ => rfl
  | 2, _ => rfl
theorem witness_MissingByteFaultsWithItsAddress :
    (lastCell.run = .running ∧
      (∀ (j : Nat) (h : j < ([0x82] : List Byte).length), lastCell.memRead (lastCell.pc + j) = .ok ([0x82] : List Byte)[j]) ∧
      Config.memSize ≤ lastCell.pc + ([0x82] : List Byte).length ∧ decode [0x82] = .error (.missingByte 1)) ∧
    (Config.memSize ≤ pastEnd.pc + ([] : List Byte).length ∧ decode [] = .error (.missingByte 0)) := by
  refine ⟨⟨rfl, fun j h => ?_, by decide, rfl⟩, by decide, rfl⟩
  match j, h with
  | 0, _ => rfl
theorem witness_PcBeyondMemoryFaultsAndNeverWraps : pastEnd.run = .running ∧ Config.memSize ≤ pastEnd.pc := by decide
theorem witness_UnimplementedOpcodeByteFaults :
    State.reset.run = .running ∧ State.reset.memRead State.reset.pc = .ok 0x00 ∧ 0x00#8 ∉ Config.implementedOpcodes :=
  ⟨rfl, rfl, by decide⟩
theorem witness_RunningStateAlwaysSteps : State.reset.run = .running := rfl
/-- LdiLoadsItsImmediate, PrnEmitsTheRegister, JmpGoesToTheRegister, RegisterFileContract, LdiThenPrnPrintsTheImmediate:
7 is in range, 8 is not. -/
theorem witness_one_register : State.reset.run = .running ∧ (7#8).toNat < 8 ∧ 8 ≤ (8#8).toNat := by decide
/-- AddStoresTheSumModulo256, MulStoresTheProductModulo256, ArithmeticThenPrnPrintsTheResult: both in range; `a` out of range with `b` out of range too; `a` in range with `b` out of range. -/
theorem witness_two_registers :
    State.reset.run = .running ∧ ((7#8).toNat < 8 ∧ (0#8).toNat < 8) ∧ 8 ≤ (8#8).toNat ∧ ((7#8).toNat < 8 ∧ 8 ≤ (8#8).toNat) := by
  decide
/-- CmpSetsExactlyOneFlagBit: equal, less and greater registers in range, and the fault clauses of `witness_two_registers`. -/
theorem witness_CmpSetsExactlyOneFlagBit :
    equalState.run = .running ∧ equalState.regs[0].toNat = equalState.regs[1].toNat ∧
    equalState.regs[1].toNat < equalState.regs[2].toNat ∧ equalState.regs[4].toNat < equalState.regs[3].toNat := by decide
theorem witness_UnsupportedOperationIsUnreachable : ∃ t, step State.reset = .next t := ⟨_, rfl⟩
/-- JeqJumpsWhenEqualBitSet and JneJumpsWhenEqualBitClear, each clause. -/
theorem witness_JeqAndJneClauses :
    (equalState.run = .running ∧ equalState.fl.getLsbD 0 = true ∧ (7#8).toNat < 8 ∧ 8 ≤ (8#8).toNat) ∧
    (State.reset.run = .running ∧ State.reset.fl.getLsbD 0 = false) := by decide
theorem witness_OnlyJumpsDivertPc :
    ldiState.run = .running ∧
    (∃ t, exec (.ldi 0 8) ldiState = .next t ∧ t.run = .running) ∧ (∃ t, exec .hlt ldiState = .next t ∧ t.run ≠ .running) :=
  ⟨rfl, ⟨_, rfl, rfl⟩, ⟨_, rfl, by decide⟩⟩
theorem witness_JmpStaysInMemory : ∃ t, exec (.jmp 3) equalState = .next t ∧ t.run = .running ∧ equalState.run = .running :=
  ⟨_, rfl, rfl, rfl⟩
theorem witness_JumpToItselfRunsForever :
    (0#8).toNat < 8 ∧ selfJump.run = .running ∧ selfJump.memRead selfJump.pc = .ok Config.opcJmp ∧
    selfJump.memRead (selfJump.pc + 1) = .ok 0 ∧ selfJump.regs[(0#8).toNat].toNat = selfJump.pc :=
  ⟨by decide, rfl, rfl, rfl, rfl⟩
/-- HltHaltsInPlace, ReservedOpcodesFault, UnknownBytesFault: the bytes 0x00 and 0xFF have no name. -/
theorem witness_halt_reserved_unknown :
    State.reset.run = .running ∧ 0x00#8 ∉ Config.implementedOpcodes ++ Config.reservedOpcodes ∧
    0xFF#8 ∉ Config.implementedOpcodes ++ Config.reservedOpcodes := by decide
theorem witness_RegisterWritersFrame :
    (∃ t, exec (.ldi 7 255) State.reset = .next t ∧ t.run = .running) ∧
    (∃ t, exec (.add 0 1) equalState = .next t ∧ t.run = .running) ∧
    (∃ t, exec (.mul 0 8) equalState = .next t ∧ t.run = .faulted (.outOfBounds (.register 8))) :=
  ⟨⟨_, rfl, rfl⟩, ⟨_, rfl, rfl⟩, ⟨_, rfl, rfl⟩⟩
theorem witness_PrnFrame : ∃ t, exec (.prn 2) equalState = .next t ∧ t.run = .running := ⟨_, rfl, rfl⟩
theorem witness_CmpFrame : ∃ t, exec (.cmp 0 1) equalState = .next t ∧ t.run = .running := ⟨_, rfl, rfl⟩
theorem witness_JumpFrame :
    (∃ t, exec (.jmp 3) equalState = .next t) ∧ (∃ t, exec (.jeq 3) equalState = .next t) ∧
    (∃ t, exec (.jne 200) equalState = .next t) := ⟨⟨_, rfl⟩, ⟨_, rfl⟩, ⟨_, rfl⟩⟩
theorem witness_RunEndersFrame :
    (∃ t, exec .hlt State.reset = .next t) ∧ (∃ t, exec .push State.reset = .next t) ∧
    (∃ t, exec (.unknown 0xFF) State.reset = .next t) := ⟨⟨_, rfl⟩, ⟨_, rfl⟩, ⟨_, rfl⟩⟩
theorem witness_FlagIsSetByCmpAndReadByConditionalJumpsOnly :
    ((∀ a b, Instr.prn 2 ≠ .cmp a b) ∧ (∀ a, Instr.prn 2 ≠ .jeq a ∧ Instr.prn 2 ≠ .jne a) ∧
      ∃ t, exec (.prn 2) equalState = .next t) ∧
    ((0#8).toNat < 8 ∧ (2#8).toNat < 8 ∧ ∃ t, exec (.cmp 0 2) equalState = .next t) ∧
    ((0b101#3).getLsbD 0 = equalState.fl.getLsbD 0 ∧ (∃ t, exec (.jeq 3) equalState = .next t) ∧
      ∃ t, exec (.jne 3) equalState = .next t) ∧
    ∃ t, step State.reset = .next t ∧ t.run = .faulted (.unknownInstruction 0) :=
  ⟨⟨by simp, by simp, _, rfl⟩, ⟨by decide, by decide, _, rfl⟩, ⟨by decide, ⟨_, rfl⟩, _, rfl⟩, _, rfl, rfl⟩
theorem witness_RunStateTransitions :
    { State.reset with run := .halted }.run ≠ .running ∧
    (∃ t, step (State.reset.withFetchWord 8 1) = .next t ∧ t.run = .halted) ∧
    (∃ t, step State.reset = .next t ∧ t.run = .faulted (.unknownInstruction 0)) ∧
    (∃ t, exec (.ldi 0 8) State.reset = .next t) :=
  ⟨by decide, ⟨_, rfl, rfl⟩, ⟨_, rfl, rfl⟩, _, rfl⟩
/-- PcIsNotReadAsData, and the statements about every step, MemoryIsConstantDuringARun, OutputGrowsByPrnAlone,
OutputIsNeverReadBack, StepKeepsTheInvariant, TerminalStateNamesItsCause: a step that completes, from a state that meets the
invariant and whose run is justified. -/
theorem witness_every_step :
    ldiState.inv ∧ ldiState.runJustified ∧ (∃ t, step ldiState = .next t ∧ t.run = .running) ∧
    ∃ t, exec (.ldi 0 8) ldiState = .next t :=
  ⟨by decide, trivial, ⟨_, rfl, rfl⟩, _, rfl⟩
/-- StepFaultsByThePriorityList: each of the six causes, in its order, and none. -/
theorem witness_StepFaultsByThePriorityList :
    pastEnd.run = .running ∧ ldiState.run = .running ∧
    pastEnd.faultCause = some (.outOfBounds (.memory 256)) ∧
    State.reset.faultCause = some (.unknownInstruction 0) ∧
    lastCell.faultCause = some (.outOfBounds (.memory 256)) ∧
    (at' (regs4 0 0 0 0) 0 254 [0x82, 0x09]).faultCause = some (.outOfBounds (.memory 256)) ∧
    (at' (regs4 0 0 0 0) 0 0 [0xA0, 8, 9]).faultCause = some (.outOfBounds (.register 8)) ∧
    (at' (regs4 0 0 0 0) 0 0 [0xA0, 7, 9]).faultCause = some (.outOfBounds (.register 9)) ∧
    ldiState.faultCause = none := by decide
theorem witness_MemoryReadAfterWrite : ldiState.mem.wf ∧ 255 < 256 ∧ 256 ≤ 256 := by decide
theorem witness_EqualReadsMakeEqualMemories :
    Memory.wf [(0, 0x82), (2, 8)] ∧ Memory.wf ldiState.mem ∧
    ∀ addr, addr < Config.memSize → Memory.read [(0, 0x82), (2, 8)] addr = ldiState.mem.read addr :=
  ⟨by decide, by decide, fun _ _ => rfl⟩
theorem witness_OutOfRangeAccessIsNeverSilent : Config.memSize ≤ 256 ∧ Config.nregs ≤ (8#8).toNat := by decide
/-- ExecutionBeginsAtAddressZero, LaunchPlacesTheImage at its two boundary lengths, LaunchMeetsTheInvariant. -/
theorem witness_launch : (∃ s, launch [] = .ok s) ∧ (∃ s, launch [0x82, 0, 1] = .ok s) ∧
    (List.replicate 256 (0#8)).length ≤ 256 ∧ 256 < (List.replicate 257 (0#8)).length :=
  ⟨⟨_, rfl⟩, ⟨_, rfl⟩, by rw [List.length_replicate], by rw [List.length_replicate]; decide⟩
theorem witness_RenderedLineIsShortestDecimal : (renderLine 0).head? = some '0' := by decide
theorem witness_CmpDecidesTheConditionalJumps :
    equalState.run = .running ∧ (0#8).toNat < 8 ∧ (1#8).toNat < 8 ∧ (2#8).toNat < 8 ∧
    equalState.regs[(0#8).toNat] = equalState.regs[(1#8).toNat] ∧
    equalState.regs[(0#8).toNat] ≠ equalState.regs[(2#8).toNat] :=
  ⟨rfl, by decide, by decide, by decide, rfl, by decide⟩

end Sys2Proof.Tests
end

section
/-! The register file's contract (spec/10_state.md R22): a read after a write. -/

namespace Sys2Proof.Machine

variable {s t : State} {i j : Byte} {v : Word}

/-- A write that succeeds is in range and stores its value in the one register. -/
theorem State.regWrite_eq_ok (h : s.regWrite i v = .ok t) :
    ∃ hi : i.toNat < Config.nregs, t = { s with regs := s.regs.set i.toNat v hi } := by
  rcases Nat.lt_or_ge i.toNat Config.nregs with hi | hi
  · rw [s.regWrite_of_lt i v hi] at h
    cases h
    exact ⟨hi, rfl⟩
  · rw [s.regWrite_of_le i v hi] at h
    cases h

theorem State.regRead_regWrite_same (h : s.regWrite i v = .ok t) : t.regRead i = .ok v := by
  obtain ⟨hi, rfl⟩ := State.regWrite_eq_ok h
  rw [State.regRead_of_lt _ i hi, Vector.getElem_set_self]

theorem State.regRead_regWrite_ne (h : s.regWrite i v = .ok t) (hj : j ≠ i) : t.regRead j = s.regRead j := by
  obtain ⟨hi, rfl⟩ := State.regWrite_eq_ok h
  rcases Nat.lt_or_ge j.toNat Config.nregs with hlt | hge
  · have hne : i.toNat ≠ j.toNat := fun e => hj (BitVec.eq_of_toNat_eq e.symm)
    rw [State.regRead_of_lt _ j hlt, s.regRead_of_lt j hlt, Vector.getElem_set_ne hi hlt hne]
  · rw [State.regRead_of_le _ j hge, s.regRead_of_le j hge]

/-- Settles O42: in range by read after write, out of range by the accesses' own check. -/
theorem registerFileContract : Obligations.RegisterFileContract := by
  intro s i v
  refine ⟨fun hi => ?_, fun hi => ⟨s.regRead_of_le i hi, s.regWrite_of_le i v hi⟩⟩
  have hw := s.regWrite_of_lt i v hi
  exact ⟨s.regRead_of_lt i hi, _, hw, State.regRead_regWrite_same hw,
    fun _ hj => State.regRead_regWrite_ne hw hj, rfl⟩

end Sys2Proof.Machine
end

section
/-! Who writes the flag and who reads it (spec/10_state.md R28). That an operation does not read `fl` is said as: it commutes
with `State.setFlag`, on the states it builds (`Except.map`) and on the faults it raises. -/

namespace Sys2Proof.Machine

variable (s : State) (f : BitVec 3)

/-! ### The operations that do not read the flag -/

/-- `set_flag` overwrites: of two writes the second alone remains (10_state.md R28). -/
@[simp] theorem State.setFlag_setFlag (bits : BitVec 3) : (s.setFlag f).setFlag bits = s.setFlag bits := rfl

@[simp] theorem State.regRead_setFlag (i : Byte) : (s.setFlag f).regRead i = s.regRead i := rfl

@[simp] theorem State.sources_setFlag (a b : Byte) : (s.setFlag f).sources a b = s.sources a b := rfl

@[simp] theorem State.regWrite_setFlag (i : Byte) (v : Word) :
    (s.setFlag f).regWrite i v = (s.regWrite i v).map (·.setFlag f) := by
  rcases Nat.lt_or_ge i.toNat Config.nregs with hi | hi
  · rw [State.regWrite_of_lt _ i v hi, s.regWrite_of_lt i v hi]
    rfl
  · rw [State.regWrite_of_le _ i v hi, s.regWrite_of_le i v hi]
    rfl

@[simp] theorem State.jump_setFlag (a : Byte) : (s.setFlag f).jump a = (s.jump a).map (·.setFlag f) := by
  rcases Nat.lt_or_ge a.toNat Config.nregs with ha | ha
  · rw [State.jump_of_lt _ a ha, s.jump_of_lt a ha]
    rfl
  · rw [State.jump_of_le _ a ha, s.jump_of_le a ha]
    rfl

/-- A conditional jump reads the flag in its condition alone. -/
@[simp] theorem State.jumpIf_setFlag (taken : Bool) (a : Byte) :
    (s.setFlag f).jumpIf taken a = (s.jumpIf taken a).map (·.setFlag f) := by
  cases taken with
  | true => exact s.jump_setFlag f a
  | false => rfl

/-- Every operation of the ALU but the comparison leaves the flag out. -/
theorem State.aluApply_setFlag {op : AluOp} (hop : op ≠ .cmp) (a b : Byte) :
    (s.setFlag f).aluApply op a b = (s.aluApply op a b).map (·.setFlag f) := by
  simp only [State.aluApply, State.sources_setFlag]
  cases s.sources a b with
  | error r => rfl
  | ok vs =>
    cases op with
    | add => exact s.regWrite_setFlag f a _
    | mul => exact s.regWrite_setFlag f a _
    | cmp => exact absurd rfl hop
    | other name => rfl

/-- Actions that leave the flag out end in a step that leaves it out, fault entry included. -/
theorem finish_setFlag {s t : State} {f : BitVec 3} {e e' : Except Reason State}
    (he : e' = e.map (·.setFlag f)) (h : finish s e = .next t) :
    finish (s.setFlag f) e' = .next (t.setFlag f) := by
  subst he
  cases e with
  | ok s' => cases h; rfl
  | error r => cases h; rfl

/-! ### The instructions -/

variable {s f} {t : State}

theorem aluInstruction_setFlag {op : AluOp} (hop : op ≠ .cmp) (a b : Byte) (h : aluInstruction op a b s = .next t) :
    aluInstruction op a b (s.setFlag f) = .next (t.setFlag f) := by
  refine finish_setFlag ?_ h
  rw [s.aluApply_setFlag f hop a b]
  cases s.aluApply op a b <;> rfl

theorem execLdi_setFlag (a imm : Byte) (h : execLdi a imm s = .next t) :
    execLdi a imm (s.setFlag f) = .next (t.setFlag f) := by
  refine finish_setFlag ?_ h
  rw [s.regWrite_setFlag f a]
  cases s.regWrite a (immediate imm) <;> rfl

theorem execPrn_setFlag (a : Byte) (h : execPrn a s = .next t) :
    execPrn a (s.setFlag f) = .next (t.setFlag f) := by
  refine finish_setFlag ?_ h
  rw [s.regRead_setFlag f a]
  cases s.regRead a <;> rfl

theorem execJeq_setFlag (a : Byte) (hf : equalBit f = equalBit s.fl) (h : execJeq a s = .next t) :
    execJeq a (s.setFlag f) = .next (t.setFlag f) := by
  refine finish_setFlag ?_ h
  rw [State.setFlag_fl, hf, State.jumpIf_setFlag]

theorem execJne_setFlag (a : Byte) (hf : equalBit f = equalBit s.fl) (h : execJne a s = .next t) :
    execJne a (s.setFlag f) = .next (t.setFlag f) := by
  refine finish_setFlag ?_ h
  rw [State.setFlag_fl, hf, State.jumpIf_setFlag]

/-- An instruction that is neither the comparison nor a conditional jump does the same whatever the flag holds. -/
theorem exec_setFlag {i : Instr} (hcmp : ∀ a b, i ≠ .cmp a b) (hcond : ∀ a, i ≠ .jeq a ∧ i ≠ .jne a)
    (h : exec i s = .next t) : exec i (s.setFlag f) = .next (t.setFlag f) := by
  cases i with
  | ldi a imm => exact execLdi_setFlag a imm h
  | prn a => exact execPrn_setFlag a h
  | add a b => exact aluInstruction_setFlag (by decide) a b h
  | mul a b => exact aluInstruction_setFlag (by decide) a b h
  | cmp a b => exact absurd rfl (hcmp a b)
  | jmp a => exact finish_setFlag (s.jump_setFlag f a) h
  | jeq a => exact absurd rfl (hcond a).1
  | jne a => exact absurd rfl (hcond a).2
  | hlt => exact finish_setFlag (s := s) (e := .ok s.halt) rfl h
  | push | pop | call | ret | unknown => exact finish_setFlag (e := .error _) rfl h

/-- CMP with both registers in range overwrites the flag with the comparison's outcome and advances. -/
theorem exec_cmp_of_lt (s : State) (a b : Byte) (ha : a.toNat < Config.nregs) (hb : b.toNat < Config.nregs) :
    exec (.cmp a b) s = .next ((s.setFlag (compareFlag s.regs[a.toNat] s.regs[b.toNat])).advance 3) := by
  simp only [exec, execCmp, aluInstruction, s.aluApply_flag .cmp a b _ ha hb rfl, finish_ok]

/-- Only a CMP writes the flag, and one that does leaves the run state. -/
theorem exec_fl_cases {i : Instr} (h : exec i s = .next t) :
    t.fl = s.fl ∨ ((∃ a b, i = .cmp a b) ∧ t.run = s.run) := by
  rcases exec_cases h with ⟨_, _, _, rfl⟩ | ⟨_, rfl⟩ | ⟨_, rfl⟩ | ⟨_, _, _, _, rfl⟩ | ⟨a, b, _, _, hi, rfl⟩ |
    ⟨_, _, _, rfl⟩ | ⟨_, _, _, rfl⟩ | ⟨_, _, rfl⟩
  case inr.inr.inr.inr.inl => exact .inr ⟨⟨a, b, hi⟩, rfl⟩
  all_goals exact .inl rfl

/-- A step that faults leaves the flag: one that wrote it was a CMP, which kept the machine running. -/
theorem step_faulted_fl {r : Reason} (h : step s = .next t) (ht : t.run = .faulted r) : t.fl = s.fl := by
  obtain ⟨hrun, ⟨i, -, hexec⟩ | ⟨r', -, rfl⟩⟩ := step_cases h
  · rcases exec_fl_cases hexec with hfl | ⟨-, hkeep⟩
    · exact hfl
    · rw [hkeep, hrun] at ht
      cases ht
  · rfl

/-- Settles O32, clause by clause: the writers of the flag, its readers, CMP's overwrite, the bit JEQ and JNE read, and
fault entry. -/
theorem flagIsSetByCmpAndReadByConditionalJumpsOnly :
    Obligations.FlagIsSetByCmpAndReadByConditionalJumpsOnly := by
  refine ⟨fun i s t hcmp h => ?_, fun i s t f hcmp hcond h => exec_setFlag hcmp hcond h,
    fun a b s t f ha hb h => ?_, fun a s t f hf => ⟨execJeq_setFlag a hf, execJne_setFlag a hf⟩,
    fun s t r h ht => step_faulted_fl h ht⟩
  · rcases exec_fl_cases h with hfl | ⟨⟨a, b, hi⟩, -⟩
    · exact hfl
    · exact absurd hi (hcmp a b)
  · rw [exec_cmp_of_lt s a b ha hb] at h
    cases h
    refine ⟨exec_cmp_of_lt (s.setFlag f) a b ha hb, ?_⟩
    rcases compareFlag_cases s.regs[a.toNat] s.regs[b.toNat] with ⟨-, e⟩ | ⟨-, e⟩ | ⟨-, e⟩
    · exact .inl e
    · exact .inr (.inr e)
    · exact .inr (.inl e)

end Sys2Proof.Machine
end

section
/-! Accesses out of range (spec/20_memory.md R43). -/

namespace Sys2Proof.Machine

theorem State.memWrite_of_le (s : State) (addr : Nat) (v : Byte) (h : Config.memSize ≤ addr) :
    s.memWrite addr v = .error (.outOfBounds (.memory addr)) := by
  simp only [State.memWrite, if_neg (Nat.not_lt.mpr h)]

/-- Settles O45, by the range check of each of the four accesses. -/
theorem outOfRangeAccessIsNeverSilent : Obligations.OutOfRangeAccessIsNeverSilent := by
  intro s addr i v
  exact ⟨fun ha => ⟨s.memRead_of_le addr ha, s.memWrite_of_le addr v ha⟩,
    fun hi => ⟨s.regRead_of_le i hi, s.regWrite_of_le i v hi⟩⟩

end Sys2Proof.Machine
end

section
/-! What the fetch depends on (spec/30_encoding.md R71): the bytes of the instruction at `pc`, as many as the first byte asks
for. -/

namespace Sys2Proof

theorem Instr.size_pos (i : Instr) : 0 < i.size := by
  cases i <;> exact Nat.succ_pos _

end Sys2Proof

namespace Sys2Proof.Machine

variable {s t : State} {i : Instr} {op a b : Byte}

/-! ### The fetch, from the bytes it reads -/

theorem lookupOpcode_of_not_implemented (h : op ∉ Config.implementedOpcodes) : lookupOpcode op = none := by
  obtain himp | ⟨-, hrow⟩ := lookupOpcode_cases op
  · exact absurd himp h
  · exact hrow

theorem fetchInstr_of_not_implemented (hop : s.memRead s.pc = .ok op) (h : op ∉ Config.implementedOpcodes) :
    fetchInstr s = .ok (undecodedByte op) := by
  simp only [fetchInstr, decodeWith, Nat.add_zero, hop, lookupOpcode_of_not_implemented h]

theorem fetchInstr_of_op0 (hop : s.memRead s.pc = .ok op) (hrow : lookupOpcode op = some (.op0 i)) :
    fetchInstr s = .ok i := by
  simp only [fetchInstr, decodeWith, Nat.add_zero, hop, hrow]

theorem fetchInstr_of_op1R {f : Byte → Instr} (hop : s.memRead s.pc = .ok op) (ha : s.memRead (s.pc + 1) = .ok a)
    (hrow : lookupOpcode op = some (.op1R f)) : fetchInstr s = .ok (f a) := by
  simp only [fetchInstr, decodeWith, Nat.add_zero, hop, ha, hrow]

theorem fetchInstr_of_op2RR {f : Byte → Byte → Instr} (hop : s.memRead s.pc = .ok op)
    (ha : s.memRead (s.pc + 1) = .ok a) (hb : s.memRead (s.pc + 2) = .ok b)
    (hrow : lookupOpcode op = some (.op2RR f)) : fetchInstr s = .ok (f a b) := by
  simp only [fetchInstr, decodeWith, Nat.add_zero, hop, ha, hb, hrow]

theorem fetchInstr_of_op2RI {f : Byte → Byte → Instr} (hop : s.memRead s.pc = .ok op)
    (ha : s.memRead (s.pc + 1) = .ok a) (hb : s.memRead (s.pc + 2) = .ok b)
    (hrow : lookupOpcode op = some (.op2RI f)) : fetchInstr s = .ok (f a b) := by
  simp only [fetchInstr, decodeWith, Nat.add_zero, hop, ha, hb, hrow]

/-! ### The length of a fetched instruction -/

/-- How many bytes the fetch reads for an opcode byte: 1 plus the operands its row of the table demands, 1 where it has no
row (30_encoding.md R60, R71). -/
def sizeOfOpcode (op : Byte) : Nat :=
  match lookupOpcode op with
  | some form => 1 + operandsOfForm form
  | none => 1

/-- The first byte alone decides the size of the instruction fetched. -/
theorem size_of_fetchInstr (h : fetchInstr s = .ok i) (hop : s.memRead s.pc = .ok op) : i.size = sizeOfOpcode op := by
  obtain ⟨op', hop', hi⟩ := fetch_cases h
  obtain rfl : op = op' := Except.ok.inj (hop.symm.trans hop')
  obtain ⟨hnot, -, hsize⟩ | ⟨rfl, rfl⟩ | ⟨a, -, hrow⟩ | ⟨a, b, -, -, hrow⟩ := hi
  · simp only [hsize, sizeOfOpcode, lookupOpcode_of_not_implemented hnot]
  · rfl
  · obtain ⟨rfl, rfl⟩ | ⟨rfl, rfl⟩ | ⟨rfl, rfl⟩ | ⟨rfl, rfl⟩ := hrow <;> rfl
  · obtain ⟨rfl, rfl⟩ | ⟨rfl, rfl⟩ | ⟨rfl, rfl⟩ | ⟨rfl, rfl⟩ := hrow <;> rfl

/-! ### The bytes the fetch depends on -/

theorem fetchInstr_congr (h : ∀ k < 3, s.memRead (s.pc + k) = t.memRead (t.pc + k)) : fetchInstr s = fetchInstr t :=
  decodeWith_congr _ _ (h 0 (by decide)) (h 1 (by decide)) (h 2 (by decide))

/-- A state that holds the bytes of a fetched instruction at its own `pc` fetches the same instruction: each form's fetch
reads no byte beyond the instruction's size. -/
theorem fetchInstr_eq_of_bytes_eq (h : fetchInstr s = .ok i)
    (hbytes : ∀ k < i.size, s.memRead (s.pc + k) = t.memRead (t.pc + k)) : fetchInstr t = .ok i := by
  have hread : ∀ k < i.size, ∀ {v : Byte}, s.memRead (s.pc + k) = .ok v → t.memRead (t.pc + k) = .ok v :=
    fun k hk _ hv => (hbytes k hk).symm.trans hv
  obtain ⟨op, hop, hi⟩ := fetch_cases h
  have hop' : t.memRead t.pc = .ok op := hread 0 i.size_pos hop
  obtain ⟨hnot, rfl, -⟩ | ⟨rfl, rfl⟩ | ⟨a, ha, hrow⟩ | ⟨a, b, ha, hb, hrow⟩ := hi
  · exact fetchInstr_of_not_implemented hop' hnot
  · exact fetchInstr_of_op0 hop' lookup_hlt
  · have hsize : i.size = 2 := by
      obtain ⟨-, rfl⟩ | ⟨-, rfl⟩ | ⟨-, rfl⟩ | ⟨-, rfl⟩ := hrow <;> rfl
    have ha' : t.memRead (t.pc + 1) = .ok a := hread 1 (by omega) ha
    obtain ⟨rfl, rfl⟩ | ⟨rfl, rfl⟩ | ⟨rfl, rfl⟩ | ⟨rfl, rfl⟩ := hrow
    · exact fetchInstr_of_op1R hop' ha' lookup_prn
    · exact fetchInstr_of_op1R hop' ha' lookup_jmp
    · exact fetchInstr_of_op1R hop' ha' lookup_jeq
    · exact fetchInstr_of_op1R hop' ha' lookup_jne
  · have hsize : i.size = 3 := by
      obtain ⟨-, rfl⟩ | ⟨-, rfl⟩ | ⟨-, rfl⟩ | ⟨-, rfl⟩ := hrow <;> rfl
    have ha' : t.memRead (t.pc + 1) = .ok a := hread 1 (by omega) ha
    have hb' : t.memRead (t.pc + 2) = .ok b := hread 2 (by omega) hb
    obtain ⟨rfl, rfl⟩ | ⟨rfl, rfl⟩ | ⟨rfl, rfl⟩ | ⟨rfl, rfl⟩ := hrow
    · exact fetchInstr_of_op2RI hop' ha' hb' lookup_ldi
    · exact fetchInstr_of_op2RR hop' ha' hb' lookup_add
    · exact fetchInstr_of_op2RR hop' ha' hb' lookup_mul
    · exact fetchInstr_of_op2RR hop' ha' hb' lookup_cmp

/-- Settles O5: the decoder reads three offsets, each form no more of them than its size, and the size is a function of the
first byte, evaluated here on the nine opcodes. -/
theorem decodingDependsOnTheBytesAtPcAlone : Obligations.DecodingDependsOnTheBytesAtPcAlone := by
  refine ⟨fun _ _ h => fetchInstr_congr h, fun _ _ _ h hbytes => fetchInstr_eq_of_bytes_eq h hbytes,
    fun s i op h hop => ?_⟩
  have hthree : ∀ c ∈ [Config.opcLdi, Config.opcAdd, Config.opcMul, Config.opcCmp], sizeOfOpcode c = 3 := by decide
  have htwo : ∀ c ∈ [Config.opcPrn, Config.opcJmp, Config.opcJeq, Config.opcJne], sizeOfOpcode c = 2 := by decide
  have hone : sizeOfOpcode Config.opcHlt = 1 := rfl
  rw [size_of_fetchInstr h hop]
  exact ⟨hthree op, htwo op, fun e => e ▸ hone⟩

end Sys2Proof.Machine
end

section
/-! LDI (spec/41_load_immediate_and_print.md R100): its bytes, and its meaning by the range of its register operand. -/

namespace Sys2Proof

/-- The row of `OPC_LDI` asks for two operand bytes, and decoding takes those three bytes off the list. -/
theorem decode_ldi (a imm : Byte) (rest : List Byte) :
    decode (Config.opcLdi :: a :: imm :: rest) = .ok (.ldi a imm, rest) := by
  have hread : decodeWith (byteAt (Config.opcLdi :: a :: imm :: rest)) = .ok (.ldi a imm) := by
    simp only [decodeWith, byteAt, List.getElem?_cons_zero, List.getElem?_cons_succ, lookup_ldi]
  simp only [decode, hread, Instr.size, List.drop_succ_cons, List.drop_zero]

end Sys2Proof

namespace Sys2Proof.Machine

variable (s : State) (a imm : Byte)

theorem exec_ldi_of_lt (ha : a.toNat < Config.nregs) :
    exec (.ldi a imm) s = .next (State.advance { s with regs := s.regs.set a.toNat imm ha } 3) := by
  simp only [exec, execLdi, s.regWrite_of_lt a _ ha, immediate_eq, finish_ok]

theorem exec_ldi_of_le (ha : Config.nregs ≤ a.toNat) :
    exec (.ldi a imm) s = .next (s.takeFault (.outOfBounds (.register a))) := by
  simp only [exec, execLdi, s.regWrite_of_le a _ ha, finish_error]

/-- Settles O11: the encoding by its row of the opcode table, the effect and the fault by the range check of the register
write. -/
theorem ldiLoadsItsImmediate : Obligations.LdiLoadsItsImmediate := by
  intro a imm s _
  exact ⟨decode_ldi a imm, exec_ldi_of_lt s a imm, exec_ldi_of_le s a imm⟩

end Sys2Proof.Machine
end

section
/-! JMP (spec/43_control_transfer.md R130): its bytes, and its meaning by the range of its register operand. -/

namespace Sys2Proof

/-- The row of `OPC_JMP` asks for one operand byte, and decoding takes those two bytes off the list. -/
theorem decode_jmp (a : Byte) (rest : List Byte) : decode (Config.opcJmp :: a :: rest) = .ok (.jmp a, rest) := by
  have hread : decodeWith (byteAt (Config.opcJmp :: a :: rest)) = .ok (.jmp a) := by
    simp only [decodeWith, byteAt, List.getElem?_cons_zero, List.getElem?_cons_succ, lookup_jmp]
  simp only [decode, hread, Instr.size, List.drop_succ_cons, List.drop_zero]

end Sys2Proof

namespace Sys2Proof.Machine

variable (s : State) (a : Byte)

theorem exec_jmp_of_lt (ha : a.toNat < Config.nregs) :
    exec (.jmp a) s = .next (s.setPc s.regs[a.toNat].toNat) := by
  simp only [exec, execJmp, s.jump_of_lt a ha, finish_ok]

theorem exec_jmp_of_le (ha : Config.nregs ≤ a.toNat) :
    exec (.jmp a) s = .next (s.takeFault (.outOfBounds (.register a))) := by
  simp only [exec, execJmp, s.jump_of_le a ha, finish_error]

/-- Settles O17: the encoding by its row of the opcode table, the effect and the fault by the range check of the register
that holds the target. -/
theorem jmpGoesToTheRegister : Obligations.JmpGoesToTheRegister := by
  intro a s _
  exact ⟨decode_jmp a, exec_jmp_of_lt s a, exec_jmp_of_le s a⟩

end Sys2Proof.Machine
end

section
/-! Bytes without a row in the opcode table (spec/44_halt_and_reserved.md R142, R144), and the end of a run
(spec/40_fetch_decode_execute_loop.md R87). -/

namespace Sys2Proof.Machine

variable {s : State} {i : Instr} {op : Byte}

theorem step_of_fetchInstr (hrun : s.run = .running) (h : fetchInstr s = .ok i) : step s = exec i s := by
  simp only [step_running s hrun, runningStep, h]

theorem step_ne_next_of_not_running (hrun : s.run ≠ .running) (t : State) : step s ≠ .next t :=
  fun h => hrun (step_cases h).1

/-- A reserved name carries the opcode it decodes from (R142), so it raises that byte exactly as the row `(unknown)` does. -/
theorem exec_undecodedByte (s : State) (op : Byte) :
    exec (undecodedByte op) s = .next (s.takeFault (.unknownInstruction op)) := by
  obtain ⟨rfl, hi⟩ | ⟨rfl, hi⟩ | ⟨rfl, hi⟩ | ⟨rfl, hi⟩ | ⟨-, hi⟩ := undecodedByte_cases op
  all_goals rw [hi]; rfl

/-- Settles O9: the fetch answers after the opcode alone, what it answers raises that byte, and a faulted state has no
step. -/
theorem unimplementedOpcodeByteFaults : Obligations.UnimplementedOpcodeByteFaults := by
  intro s op hrun hop hnot
  have hstep : step s = .next (s.takeFault (.unknownInstruction op)) := by
    rw [step_of_fetchInstr hrun (fetchInstr_of_not_implemented hop hnot), exec_undecodedByte]
  have hfaulted : (s.takeFault (.unknownInstruction op)).run ≠ .running := by simp [State.takeFault_run]
  exact ⟨hstep, step_ne_next_of_not_running hfaulted⟩

end Sys2Proof.Machine
end

section
/-! Which reasons a step can raise (spec/60_exceptions.md R150, R154): an address or a register index out of range, or an
opcode byte that is not implemented. -/

namespace Sys2Proof

/-- Decoding adds no error of its own: one it answers is the reader's, at one of the three offsets. -/
theorem decodeWith_eq_error {ε : Type} {read : Nat → Except ε Byte} {e : ε} (h : decodeWith read = .error e) :
    ∃ k < 3, read k = .error e := by
  cases h0 : read 0 with
  | error e0 =>
    simp only [decodeWith, h0] at h
    cases h
    exact ⟨0, by decide, h0⟩
  | ok op =>
    cases h1 : read 1 with
    | error e1 =>
      simp only [decodeWith, h0, h1] at h
      split at h <;> cases h
      all_goals exact ⟨1, by decide, h1⟩
    | ok a =>
      cases h2 : read 2 with
      | error e2 =>
        simp only [decodeWith, h0, h1, h2] at h
        split at h <;> cases h
        all_goals exact ⟨2, by decide, h2⟩
      | ok b =>
        simp only [decodeWith, h0, h1, h2] at h
        split at h <;> cases h

end Sys2Proof

namespace Sys2Proof.Machine

variable {s t : State} {i : Instr} {r : Reason}

/-- A fetch fails on the address of a byte it could not read, and on nothing else. -/
theorem fetchInstr_eq_error (h : fetchInstr s = .error r) : ∃ addr, r = .outOfBounds (.memory addr) := by
  obtain ⟨k, -, hk⟩ := decodeWith_eq_error h
  exact ⟨s.pc + k, (State.memRead_eq_error s hk).2⟩

/-- What an instruction does to the run state: nothing, halt, or a fault that names a register or an opcode byte. -/
theorem exec_run_cases (h : exec i s = .next t) :
    t.run = s.run ∨ t.run = .halted ∨ (∃ j, t.run = .faulted (.outOfBounds (.register j))) ∨
    ∃ op, t.run = .faulted (.unknownInstruction op) := by
  obtain ⟨j, -, -, rfl⟩ | ⟨-, rfl⟩ | ⟨-, rfl⟩ | ⟨_, _, _, -, rfl⟩ | ⟨_, _, _, _, -, rfl⟩ | ⟨_, _, -, rfl⟩ |
    ⟨_, _, -, rfl⟩ | ⟨_, -, rfl⟩ := exec_cases h
  · exact .inr (.inr (.inl ⟨j, rfl⟩))
  · exact .inr (.inr (.inr ⟨i.opcode, rfl⟩))
  · exact .inr (.inl rfl)
  all_goals exact .inl rfl

/-- A step that faults came from a fetch or an instruction, and neither raises a reason of any other kind. -/
theorem step_faulted_cases (h : step s = .next t) (ht : t.run = .faulted r) :
    (∃ loc, r = .outOfBounds loc) ∨ ∃ op, r = .unknownInstruction op := by
  obtain ⟨hrun, ⟨i, -, hexec⟩ | ⟨r', hfetch, rfl⟩⟩ := step_cases h
  · obtain hkeep | hhalt | ⟨j, hj⟩ | ⟨op, hop⟩ := exec_run_cases hexec
    · exact absurd (ht.symm.trans (hkeep.trans hrun)) (by simp)
    · exact absurd (ht.symm.trans hhalt) (by simp)
    · exact .inl ⟨_, RunState.faulted.inj (ht.symm.trans hj)⟩
    · exact .inr ⟨op, RunState.faulted.inj (ht.symm.trans hop)⟩
  · obtain ⟨addr, rfl⟩ := fetchInstr_eq_error hfetch
    exact .inl ⟨_, (RunState.faulted.inj ht).symm⟩

/-- Settles O16: the ALU's own answer to any other name, and the two kinds of reason a step raises, neither of which is
`UnsupportedOperation`. -/
theorem unsupportedOperationIsUnreachable : Obligations.UnsupportedOperationIsUnreachable := by
  refine ⟨fun _ _ _ => rfl, fun s t h ht => ?_⟩
  obtain ⟨_, hr⟩ | ⟨_, hr⟩ := step_faulted_cases h ht
  · cases hr
  · cases hr

end Sys2Proof.Machine
end

section
/-! What the loader leaves unchanged (spec/70_reset_and_hazards.md R182): everything but memory. -/

namespace Sys2Proof.Machine

variable {s t : State}

/-- A write to memory that succeeds is in range and changes the memory alone. -/
theorem State.memWrite_eq_ok {addr : Nat} {v : Byte} (h : s.memWrite addr v = .ok t) :
    addr < Config.memSize ∧ t = { s with mem := s.mem.write addr v } := by
  rcases Nat.lt_or_ge addr Config.memSize with ha | ha
  · simp only [State.memWrite, if_pos ha] at h
    cases h
    exact ⟨ha, rfl⟩
  · rw [s.memWrite_of_le addr v ha] at h
    cases h

/-- A load that succeeds on a nonempty image wrote its first byte and loaded the rest from the next address on. -/
theorem loadFrom_cons_eq_ok {k : Nat} {b : Byte} {rest : List Byte} (h : loadFrom k (b :: rest) s = .ok t) :
    ∃ u, s.memWrite k b = .ok u ∧ loadFrom (k + 1) rest u = .ok t := by
  cases hw : s.memWrite k b with
  | error r => simp only [loadFrom, hw] at h; cases h
  | ok u => exact ⟨u, rfl, by simpa only [loadFrom, hw] using h⟩

/-- The loader touches memory only, by induction on the image. -/
theorem loadFrom_frame {img : List Byte} {k : Nat} (h : loadFrom k img s = .ok t) : t = { s with mem := t.mem } := by
  induction img generalizing k s with
  | nil => cases h; rfl
  | cons b rest ih =>
    obtain ⟨u, hw, hrest⟩ := loadFrom_cons_eq_ok h
    obtain ⟨-, rfl⟩ := State.memWrite_eq_ok hw
    exact (ih hrest :)

/-- Settles O47: reset gives `pc` and `run` their values, and the loader leaves both. -/
theorem executionBeginsAtAddressZero : Obligations.ExecutionBeginsAtAddressZero := by
  refine ⟨rfl, rfl, fun img s h => ?_⟩
  have hframe : s = { State.reset with mem := s.mem } := loadFrom_frame h
  rw [hframe]
  exact ⟨rfl, rfl⟩

end Sys2Proof.Machine
end

section
/-! The decoder and the encoder (spec/30_encoding.md): decoding gives an instruction exactly where the reader holds the bytes of
its encoding, for every reader of bytes, a list's or memory's. -/

namespace Sys2Proof

/-- A reader holds these bytes at the offsets 0, 1, and so on. -/
def Holds {ε : Type} (read : Nat → Except ε Byte) (bytes : List Byte) : Prop :=
  ∀ (k : Nat) (h : k < bytes.length), read k = .ok bytes[k]

section
variable {ε : Type} {read : Nat → Except ε Byte} {op a b : Byte} {bytes rest : List Byte} {i : Instr}

@[simp] theorem holds_nil : Holds read [] := fun _ h => absurd h (Nat.not_lt_zero _)

@[simp] theorem holds_cons : Holds read (b :: bytes) ↔ read 0 = .ok b ∧ Holds (fun k => read (k + 1)) bytes := by
  refine ⟨fun h => ⟨h 0 (Nat.succ_pos _), fun k hk => h (k + 1) (Nat.succ_lt_succ hk)⟩, fun ⟨h0, h⟩ k hk => ?_⟩
  cases k with
  | zero => exact h0
  | succ k => exact h k (Nat.lt_of_succ_lt_succ hk)

/-- What a table lookup answers stands in the table. -/
theorem mem_of_findRow {α : Type} {table : List (Byte × α)} {entry : α} (h : findRow op table = some entry) :
    (op, entry) ∈ table := by
  induction table with
  | nil => cases h
  | cons row table ih =>
    obtain ⟨c, e⟩ := row
    simp only [findRow] at h
    split at h
    next heq =>
      cases h
      rw [heq]
      exact List.mem_cons_self
    next => exact List.mem_cons_of_mem _ (ih h)

/-- What a row of the opcode table builds from its operand bytes is encoded as the row's opcode and those bytes. -/
theorem encode_of_lookupOpcode :
    (∀ i, lookupOpcode op = some (.op0 i) → i.wellFormed = true ∧ encode i = [op]) ∧
    (∀ f, lookupOpcode op = some (.op1R f) → ∀ a, (f a).wellFormed = true ∧ encode (f a) = [op, a]) ∧
    (∀ f, lookupOpcode op = some (.op2RR f) ∨ lookupOpcode op = some (.op2RI f) →
      ∀ a b, (f a b).wellFormed = true ∧ encode (f a b) = [op, a, b]) := by
  refine ⟨fun i h => ?_, fun f h a => ?_, fun f h a b => ?_⟩
  · have hmem := mem_of_findRow h
    simp only [opTable, List.mem_cons, Prod.mk.injEq, reduceCtorEq, and_false, false_or, OpForm.op0.injEq,
      List.not_mem_nil, or_false] at hmem
    obtain ⟨rfl, rfl⟩ := hmem
    exact ⟨rfl, rfl⟩
  · have hmem := mem_of_findRow h
    simp only [opTable, List.mem_cons, Prod.mk.injEq, reduceCtorEq, and_false, false_or, OpForm.op1R.injEq,
      List.not_mem_nil, or_false] at hmem
    obtain ⟨rfl, rfl⟩ | ⟨rfl, rfl⟩ | ⟨rfl, rfl⟩ | ⟨rfl, rfl⟩ := hmem <;> exact ⟨rfl, rfl⟩
  · have hmem : (op, .op2RR f) ∈ opTable ∨ (op, .op2RI f) ∈ opTable := h.imp mem_of_findRow mem_of_findRow
    simp only [opTable, List.mem_cons, Prod.mk.injEq, reduceCtorEq, and_false, false_or, OpForm.op2RR.injEq,
      OpForm.op2RI.injEq, List.not_mem_nil, or_false] at hmem
    obtain (⟨rfl, rfl⟩ | ⟨rfl, rfl⟩ | ⟨rfl, rfl⟩) | ⟨rfl, rfl⟩ := hmem <;> exact ⟨rfl, rfl⟩

theorem namedOpcode_eq_false : namedOpcode op = false ↔ op ∉ Config.implementedOpcodes ++ Config.reservedOpcodes := by
  simp only [namedOpcode, List.contains_eq_mem, decide_eq_false_iff_not]

/-- A byte without a row is the whole encoding of what it decodes to. -/
theorem encode_undecodedByte (h : op ∉ Config.implementedOpcodes) :
    (undecodedByte op).wellFormed = true ∧ encode (undecodedByte op) = [op] := by
  obtain ⟨rfl, hi⟩ | ⟨rfl, hi⟩ | ⟨rfl, hi⟩ | ⟨rfl, hi⟩ | ⟨hres, hi⟩ := undecodedByte_cases op
  case inr.inr.inr.inr =>
    have hnamed : namedOpcode op = false :=
      namedOpcode_eq_false.mpr fun hmem => (List.mem_append.mp hmem).elim h hres
    simp [hi, Instr.wellFormed, hnamed, encode, Instr.opcode, Instr.operands]
  all_goals rw [hi]; exact ⟨rfl, rfl⟩

theorem lookupOpcode_eq_none : lookupOpcode op = none ↔ op ∉ Config.implementedOpcodes := by
  have hrow : ∀ c ∈ Config.implementedOpcodes, (lookupOpcode c).isSome = true := by decide
  obtain himp | ⟨hnot, hnone⟩ := lookupOpcode_cases op
  · refine ⟨fun h => ?_, fun h => absurd himp h⟩
    have := hrow op himp
    simp [h] at this
  · exact ⟨fun _ => hnot, fun _ => hnone⟩

/-- Decoding reads exactly the encoding of what it answers. -/
theorem holds_encode_of_decodeWith (h : decodeWith read = .ok i) :
    i.wellFormed = true ∧ Holds read (encode i) := by
  unfold decodeWith at h
  split at h
  · cases h
  next op hop =>
    obtain ⟨hop0, hop1, hop2⟩ := @encode_of_lookupOpcode op
    split at h
    next hrow =>
      cases h
      obtain ⟨hwf, henc⟩ := encode_undecodedByte (lookupOpcode_eq_none.mp hrow)
      exact ⟨hwf, by simp [henc, hop]⟩
    next hrow =>
      cases h
      obtain ⟨hwf, henc⟩ := hop0 i hrow
      exact ⟨hwf, by simp [henc, hop]⟩
    next f hrow =>
      split at h <;> cases h
      next a ha =>
        obtain ⟨hwf, henc⟩ := hop1 f hrow a
        exact ⟨hwf, by simp [henc, hop, ha]⟩
    case h_4 f hrow | h_5 f hrow =>
      split at h
      · cases h
      next a ha =>
        split at h <;> cases h
        next b hb =>
          obtain ⟨hwf, henc⟩ := hop2 f (by simp [hrow]) a b
          exact ⟨hwf, by simp [henc, hop, ha, hb]⟩

theorem decodeWith_of_not_implemented (hop : read 0 = .ok op) (h : op ∉ Config.implementedOpcodes) :
    decodeWith read = .ok (undecodedByte op) := by
  simp only [decodeWith, hop, lookupOpcode_eq_none.mpr h]

theorem undecodedByte_of_not_named (h : op ∉ Config.implementedOpcodes ++ Config.reservedOpcodes) :
    undecodedByte op = .unknown op := by
  have hres : op ∉ Config.reservedOpcodes := fun hmem => h (List.mem_append_right _ hmem)
  obtain ⟨rfl, -⟩ | ⟨rfl, -⟩ | ⟨rfl, -⟩ | ⟨rfl, -⟩ | ⟨-, hi⟩ := undecodedByte_cases op
  case inr.inr.inr.inr => exact hi
  all_goals exact absurd (by decide) hres

/-- A reader that holds the encoding of a well-formed instruction decodes to it. -/
theorem decodeWith_of_holds_encode (hwf : i.wellFormed = true) (h : Holds read (encode i)) :
    decodeWith read = .ok i := by
  cases i with
  | unknown op =>
    have hnot : op ∉ Config.implementedOpcodes ++ Config.reservedOpcodes :=
      namedOpcode_eq_false.mp (by simpa [Instr.wellFormed] using hwf)
    rw [← undecodedByte_of_not_named hnot]
    exact decodeWith_of_not_implemented (holds_cons.mp h).1 fun hmem => hnot (List.mem_append_left _ hmem)
  | push | pop | call | ret => exact decodeWith_of_not_implemented (holds_cons.mp h).1 (by decide)
  | _ =>
    simp only [encode, Instr.opcode, Instr.operands, holds_cons, holds_nil] at h
    simp only [decodeWith, h, lookup_ldi, lookup_prn, lookup_add, lookup_mul, lookup_cmp, lookup_jmp, lookup_jeq,
      lookup_jne, lookup_hlt]

/-- Decoding, for any reader: it answers the well-formed instruction whose encoding the reader holds. -/
theorem decodeWith_eq_ok_iff : decodeWith read = .ok i ↔ i.wellFormed = true ∧ Holds read (encode i) :=
  ⟨holds_encode_of_decodeWith, fun ⟨hwf, h⟩ => decodeWith_of_holds_encode hwf h⟩

end

/-! ### The decoder on a list of bytes -/

section
variable {bytes rest : List Byte} {i : Instr} {op : Byte} {k : Nat}

theorem encode_length (i : Instr) : (encode i).length = i.size := by
  cases i <;> rfl

theorem byteAt_of_lt (h : k < bytes.length) : byteAt bytes k = .ok bytes[k] := by
  simp only [byteAt, List.getElem?_eq_getElem h]

theorem byteAt_of_le (h : bytes.length ≤ k) : byteAt bytes k = .error (.missingByte k) := by
  simp only [byteAt, List.getElem?_eq_none h]

theorem byteAt_eq_ok {b : Byte} : byteAt bytes k = .ok b ↔ bytes[k]? = some b := by
  unfold byteAt
  split <;> simp_all

theorem holds_byteAt {bytes' : List Byte} : Holds (byteAt bytes) bytes' ↔ bytes' <+: bytes := by
  simp only [Holds, byteAt_eq_ok, List.prefix_iff_getElem?]

/-- A list of bytes decodes to an instruction and a rest exactly where the instruction is well-formed and its encoding stands
before that rest. -/
theorem decode_eq_ok_iff : decode bytes = .ok (i, rest) ↔ i.wellFormed = true ∧ bytes = encode i ++ rest := by
  have hdrop : ∀ rest', (encode i ++ rest').drop i.size = rest' := fun _ => List.drop_left' (encode_length i)
  unfold decode
  constructor
  · intro h
    split at h <;> cases h
    next hi =>
      obtain ⟨hwf, hheld⟩ := decodeWith_eq_ok_iff.mp hi
      obtain ⟨rest', rfl⟩ := holds_byteAt.mp hheld
      exact ⟨hwf, by rw [hdrop]⟩
  · rintro ⟨hwf, rfl⟩
    have hi : decodeWith (byteAt (encode i ++ rest)) = .ok i :=
      decodeWith_eq_ok_iff.mpr ⟨hwf, holds_byteAt.mpr (List.prefix_append _ _)⟩
    simp only [hi, hdrop]

/-- Settles O1: one direction of `decode_eq_ok_iff`. -/
theorem decodeInvertsEncode : Obligations.DecodeInvertsEncode :=
  fun _ _ hwf => decode_eq_ok_iff.mpr ⟨hwf, rfl⟩

/-- Settles O2: the other direction of `decode_eq_ok_iff`. -/
theorem encodeInvertsDecode : Obligations.EncodeInvertsDecode :=
  fun _ _ _ h => decode_eq_ok_iff.mp h

/-- A byte without a row is decoded alone, whatever follows it (44_halt_and_reserved.md R142, R144). -/
theorem decode_of_not_implemented (h : op ∉ Config.implementedOpcodes) (rest : List Byte) :
    decode (op :: rest) = .ok (undecodedByte op, rest) := by
  obtain ⟨hwf, henc⟩ := encode_undecodedByte h
  exact decode_eq_ok_iff.mpr ⟨hwf, by rw [henc]; rfl⟩

theorem decode_prn (a : Byte) (rest : List Byte) : decode (Config.opcPrn :: a :: rest) = .ok (.prn a, rest) :=
  decode_eq_ok_iff.mpr ⟨rfl, rfl⟩

/-- Settles O3, by evaluating the thirteen values. -/
theorem opcodeValuesMeetTheSourcesConstraints : Obligations.OpcodeValuesMeetTheSourcesConstraints := by
  unfold Obligations.OpcodeValuesMeetTheSourcesConstraints
  decide

/-- Settles O4, by running the decoder on each word. -/
theorem writtenOutWordsDecode : Obligations.WrittenOutWordsDecode :=
  ⟨rfl, rfl, rfl, rfl, rfl, rfl, rfl, rfl⟩

end

end Sys2Proof
end

section
/-! The step, from the bytes at `pc` (spec/40_fetch_decode_execute_loop.md R80 to R83, R86). -/

namespace Sys2Proof

/-- Decoding commutes with a renaming of the reader's errors. -/
theorem decodeWith_mapError {ε ε' : Type} (read : Nat → Except ε Byte) (g : ε → ε') :
    decodeWith (fun k => (read k).mapError g) = (decodeWith read).mapError g := by
  simp only [decodeWith]
  cases read 0 with
  | error e => rfl
  | ok op =>
    simp only [Except.mapError]
    cases lookupOpcode op with
    | none => rfl
    | some form =>
      cases form with
      | op0 i => rfl
      | op1R f => cases read 1 <;> rfl
      | op2RR f | op2RI f =>
        cases read 1 with
        | error e => rfl
        | ok a => cases read 2 <;> rfl

end Sys2Proof

namespace Sys2Proof.Machine

variable {s t : State} {i : Instr} {bytes rest : List Byte} {r : Reason}

/-- Fetching, from the bytes in memory: it answers the well-formed instruction whose encoding stands at `pc`. -/
theorem fetchInstr_eq_ok_iff :
    fetchInstr s = .ok i ↔ i.wellFormed = true ∧ Holds (fun k => s.memRead (s.pc + k)) (encode i) :=
  decodeWith_eq_ok_iff

/-- A fetch reads no further than memory goes: `pc` plus the instruction's length is at most MEM_SIZE. -/
theorem pc_add_size_le_of_fetchInstr (h : fetchInstr s = .ok i) : s.pc + i.size ≤ Config.memSize := by
  have hlast : i.size - 1 < (encode i).length := by
    rw [encode_length]
    exact Nat.sub_lt i.size_pos Nat.one_pos
  have hread := (fetchInstr_eq_ok_iff.mp h).2 _ hlast
  have hlt := (State.memRead_eq_ok s hread).1
  have hpos := i.size_pos
  omega

theorem step_of_fetchInstr_error (hrun : s.run = .running) (h : fetchInstr s = .error r) :
    step s = .next (s.takeFault r) := by
  simp only [step_running s hrun, runningStep, h, finish_error]

/-- Settles O6: the bytes that decode are the instruction's encoding, which the fetch finds in memory. -/
theorem stepRunsTheDecodedInstruction : Obligations.StepRunsTheDecodedInstruction := by
  intro s bytes rest i hrun hbytes hdec
  obtain ⟨hwf, rfl⟩ := decode_eq_ok_iff.mp hdec
  refine step_of_fetchInstr hrun (fetchInstr_eq_ok_iff.mpr ⟨hwf, fun k hk => ?_⟩)
  have hlt : k < (encode i ++ rest).length := by
    rw [List.length_append]
    omega
  exact (hbytes k hlt).trans (by rw [List.getElem_append_left hk])

/-- Memory's answer to a missing byte of the list of all bytes from `pc` on (the fault's payload is D23). -/
def missingByteFault (pc : Nat) : DecodeError → Reason
  | .missingByte k => .outOfBounds (.memory (pc + k))

/-- Where a list holds all bytes from `pc` to the end of memory, fetching is decoding that list. -/
theorem fetchInstr_of_all_bytes (hbytes : ∀ (j : Nat) (h : j < bytes.length), s.memRead (s.pc + j) = .ok bytes[j])
    (hend : Config.memSize ≤ s.pc + bytes.length) :
    fetchInstr s = (decodeWith (byteAt bytes)).mapError (missingByteFault s.pc) := by
  rw [← decodeWith_mapError]
  unfold fetchInstr
  congr 1
  funext k
  rcases Nat.lt_or_ge k bytes.length with hk | hk
  · rw [hbytes k hk, byteAt_of_lt hk, Except.mapError]
  · rw [byteAt_of_le hk, s.memRead_of_le _ (by omega)]
    rfl

theorem decode_eq_error {e : DecodeError} (h : decode bytes = .error e) : decodeWith (byteAt bytes) = .error e := by
  unfold decode at h
  split at h <;> cases h
  assumption

/-- Settles O7: the fetch is the decoding of the list, its missing byte the byte beyond memory. -/
theorem missingByteFaultsWithItsAddress : Obligations.MissingByteFaultsWithItsAddress := by
  intro s bytes k hrun hbytes hend hdec
  refine step_of_fetchInstr_error hrun ?_
  rw [fetchInstr_of_all_bytes hbytes hend, decode_eq_error hdec]
  rfl

/-- Settles O8: the fetch of the opcode is out of range. -/
theorem pcBeyondMemoryFaultsAndNeverWraps : Obligations.PcBeyondMemoryFaultsAndNeverWraps := by
  intro s hrun hpc
  refine step_of_fetchInstr_error hrun ?_
  simp only [fetchInstr, decodeWith, Nat.add_zero, s.memRead_of_le s.pc hpc]

/-- Whatever its run state, no state is refused: a running one has a next state, an ended one answers a fault. -/
theorem step_total (s : State) :
    (s.run = .running ∧ ∃ t, step s = .next t) ∨ (s.run ≠ .running ∧ ∃ r, step s = .fault r) := by
  cases hrun : s.run with
  | running =>
    refine .inl ⟨rfl, ?_⟩
    cases hfetch : fetchInstr s with
    | error r => exact ⟨_, step_of_fetchInstr_error hrun hfetch⟩
    | ok i =>
      obtain ⟨e, he⟩ := exec_eq_finish i s
      rw [step_of_fetchInstr hrun hfetch, he]
      obtain ⟨t, -, ht⟩ | ⟨r, -, ht⟩ := finish_cases s e <;> exact ⟨_, ht⟩
  | halted => exact .inr ⟨by simp, .halted, by simp only [step, loopPass, hrun]⟩
  | faulted r => exact .inr ⟨by simp, .faulted r, by simp only [step, loopPass, hrun]⟩

/-- Settles O10, from the outcome of a step in each run state. -/
theorem runningStateAlwaysSteps : Obligations.RunningStateAlwaysSteps := by
  refine ⟨fun s hrun => ?_, fun s r h => ?_⟩
  · obtain ⟨-, ht⟩ | ⟨hnot, -⟩ := step_total s
    · exact ht
    · exact absurd hrun hnot
  · obtain ⟨-, _, ht⟩ | ⟨-, _, ht⟩ := step_total s <;> rw [ht] at h <;> cases h

end Sys2Proof.Machine
end

section
/-! What each instruction does, by the range of its register operands and by the flag (spec/41_load_immediate_and_print.md,
spec/42_alu.md, spec/43_control_transfer.md, spec/44_halt_and_reserved.md). -/

namespace Sys2Proof.Machine

section
variable (s : State) (a b : Byte)

/-! ### PRN -/

theorem exec_prn_of_lt (ha : a.toNat < Config.nregs) :
    exec (.prn a) s = .next ((s.emit s.regs[a.toNat]).advance 2) := by
  simp only [exec, execPrn, s.regRead_of_lt a ha, finish_ok]

theorem exec_prn_of_le (ha : Config.nregs ≤ a.toNat) :
    exec (.prn a) s = .next (s.takeFault (.outOfBounds (.register a))) := by
  simp only [exec, execPrn, s.regRead_of_le a ha, finish_error]

/-! ### ADD, MUL, CMP -/

theorem aluInstruction_of_le_first (op : AluOp) (ha : Config.nregs ≤ a.toNat) :
    aluInstruction op a b s = .next (s.takeFault (.outOfBounds (.register a))) := by
  simp only [aluInstruction, s.aluApply_of_le_first op a b ha, finish_error]

theorem aluInstruction_of_le_second (op : AluOp) (ha : a.toNat < Config.nregs) (hb : Config.nregs ≤ b.toNat) :
    aluInstruction op a b s = .next (s.takeFault (.outOfBounds (.register b))) := by
  simp only [aluInstruction, s.aluApply_of_le_second op a b ha hb, finish_error]

theorem exec_add_of_lt (ha : a.toNat < Config.nregs) (hb : b.toNat < Config.nregs) :
    exec (.add a b) s = .next (State.advance
      { s with regs := s.regs.set a.toNat (aluSum s.regs[a.toNat] s.regs[b.toNat]) ha } 3) := by
  simp only [exec, execAdd, aluInstruction, s.aluApply_value .add a b _ ha hb rfl, finish_ok]

theorem exec_mul_of_lt (ha : a.toNat < Config.nregs) (hb : b.toNat < Config.nregs) :
    exec (.mul a b) s = .next (State.advance
      { s with regs := s.regs.set a.toNat (aluProduct s.regs[a.toNat] s.regs[b.toNat]) ha } 3) := by
  simp only [exec, execMul, aluInstruction, s.aluApply_value .mul a b _ ha hb rfl, finish_ok]

/-! ### JEQ, JNE -/

theorem exec_jeq_of_equal (h : equalBit s.fl = true) : exec (.jeq a) s = exec (.jmp a) s := by
  simp only [exec, execJeq, execJmp, h, State.jumpIf_true]

theorem exec_jeq_of_not_equal (h : equalBit s.fl = false) : exec (.jeq a) s = .next (s.advance 2) := by
  simp only [exec, execJeq, h, State.jumpIf_false, finish_ok]

theorem exec_jne_of_equal (h : equalBit s.fl = true) : exec (.jne a) s = .next (s.advance 2) := by
  simp only [exec, execJne, h, Bool.not_true, State.jumpIf_false, finish_ok]

theorem exec_jne_of_not_equal (h : equalBit s.fl = false) : exec (.jne a) s = exec (.jmp a) s := by
  simp only [exec, execJne, execJmp, h, Bool.not_false, State.jumpIf_true]

end

/-! ### The statements -/

/-- Settles O12: the encoding by its row, the effect and the fault by the range check of the register read. -/
theorem prnEmitsTheRegister : Obligations.PrnEmitsTheRegister := by
  intro a s _
  refine ⟨decode_prn a, fun ha => ⟨exec_prn_of_lt s a ha, ?_⟩, exec_prn_of_le s a⟩
  simp only [State.renderedOut, List.map_append, List.map_cons, List.map_nil, renderLine]

theorem aluSum_eq_mod (va vb : Word) : aluSum va vb = BitVec.ofNat 8 ((va.toNat + vb.toNat) % 256) :=
  BitVec.eq_of_toNat_eq (by simp [aluSum])

/-- Settles O13, by the range of the two registers in the order they are asked for. -/
theorem addStoresTheSumModulo256 : Obligations.AddStoresTheSumModulo256 := by
  intro a b s _
  refine ⟨fun ha hb => ?_, aluInstruction_of_le_first s a b .add, aluInstruction_of_le_second s a b .add⟩
  rw [exec_add_of_lt s a b ha hb, aluSum_eq_mod]
  rfl

theorem aluProduct_eq_mod (va vb : Word) : aluProduct va vb = BitVec.ofNat 8 ((va.toNat * vb.toNat) % 256) :=
  BitVec.eq_of_toNat_eq (by simp [aluProduct])

/-- Settles O14, by the range of the two registers in the order they are asked for. -/
theorem mulStoresTheProductModulo256 : Obligations.MulStoresTheProductModulo256 := by
  intro a b s _
  refine ⟨fun ha hb => ?_, aluInstruction_of_le_first s a b .mul, aluInstruction_of_le_second s a b .mul⟩
  rw [exec_mul_of_lt s a b ha hb, aluProduct_eq_mod]
  rfl

theorem compareFlag_of_eq {va vb : Word} (h : va = vb) : compareFlag va vb = Config.flE := if_pos h

theorem compareFlag_of_lt {va vb : Word} (h : va.toNat < vb.toNat) : compareFlag va vb = Config.flL := by
  have hne : va ≠ vb := fun e => absurd (e ▸ h) (Nat.lt_irrefl _)
  simp only [compareFlag, if_neg hne, if_pos h]

theorem compareFlag_of_gt {va vb : Word} (h : vb.toNat < va.toNat) : compareFlag va vb = Config.flG := by
  have hne : va ≠ vb := fun e => absurd (e ▸ h) (Nat.lt_irrefl _)
  simp only [compareFlag, if_neg hne, if_neg (Nat.lt_asymm h)]

/-- Settles O15: the flag by the order of the two values, the faults by the range of the two registers. -/
theorem cmpSetsExactlyOneFlagBit : Obligations.CmpSetsExactlyOneFlagBit := by
  intro a b s _
  refine ⟨fun ha hb => ?_, aluInstruction_of_le_first s a b .cmp, aluInstruction_of_le_second s a b .cmp⟩
  rw [exec_cmp_of_lt s a b ha hb]
  refine ⟨fun h => ?_, fun h => ?_, fun h => ?_⟩
  · rw [compareFlag_of_eq (BitVec.eq_of_toNat_eq h)]; rfl
  · rw [compareFlag_of_lt h]; rfl
  · rw [compareFlag_of_gt h]; rfl

/-- Settles O18: taken it is JMP, untaken it advances. -/
theorem jeqJumpsWhenEqualBitSet : Obligations.JeqJumpsWhenEqualBitSet := by
  intro a s _
  refine ⟨fun he => ?_, exec_jeq_of_not_equal s a⟩
  rw [exec_jeq_of_equal s a he]
  exact ⟨exec_jmp_of_lt s a, exec_jmp_of_le s a⟩

/-- Settles O19: taken it is JMP, untaken it advances. -/
theorem jneJumpsWhenEqualBitClear : Obligations.JneJumpsWhenEqualBitClear := by
  intro a s _
  refine ⟨fun he => ?_, exec_jne_of_equal s a⟩
  rw [exec_jne_of_not_equal s a he]
  exact ⟨exec_jmp_of_lt s a, exec_jmp_of_le s a⟩

/-- Settles O20, by the E bit. -/
theorem jeqAndJneAreComplements : Obligations.JeqAndJneAreComplements := by
  intro a s
  cases he : equalBit s.fl with
  | true => exact .inl ⟨exec_jeq_of_equal s a he, exec_jne_of_equal s a he⟩
  | false => exact .inr ⟨exec_jne_of_not_equal s a he, exec_jeq_of_not_equal s a he⟩

/-- Settles O22: a register holds less than 256, which is MEM_SIZE. -/
theorem jmpStaysInMemory : Obligations.JmpStaysInMemory := by
  intro a s t _ h hrun
  rcases Nat.lt_or_ge a.toNat Config.nregs with ha | ha
  · rw [exec_jmp_of_lt s a ha] at h
    cases h
    exact ⟨_, State.memRead_of_lt _ _ s.regs[a.toNat].isLt⟩
  · rw [exec_jmp_of_le s a ha] at h
    cases h
    cases hrun

/-- Settles O24: HLT's one action, and that an ended run has no step. -/
theorem hltHaltsInPlace : Obligations.HltHaltsInPlace :=
  fun s _ => ⟨rfl, step_ne_next_of_not_running (s := s.halt) (by simp)⟩

/-- Settles O25: the four bytes have no row, and each raises itself. -/
theorem reservedOpcodesFault : Obligations.ReservedOpcodesFault := by
  intro s rest _
  exact ⟨⟨decode_of_not_implemented (by decide) rest, exec_undecodedByte s 0x45⟩,
    ⟨decode_of_not_implemented (by decide) rest, exec_undecodedByte s 0x46⟩,
    ⟨decode_of_not_implemented (by decide) rest, exec_undecodedByte s 0x50⟩,
    ⟨decode_of_not_implemented (by decide) rest, exec_undecodedByte s 0x11⟩⟩

/-- Settles O26: a byte without a name has no row and stands for itself. -/
theorem unknownBytesFault : Obligations.UnknownBytesFault := by
  intro s op rest _ hnot
  have hi : undecodedByte op = .unknown op := undecodedByte_of_not_named hnot
  have himp : op ∉ Config.implementedOpcodes := fun h => hnot (List.mem_append_left _ h)
  rw [← hi]
  exact ⟨decode_of_not_implemented himp rest, exec_undecodedByte s op⟩

end Sys2Proof.Machine
end

section
/-! The source's testable properties (spec/95_test_vectors.md S1 to S4): two instructions in a row. -/

namespace Sys2Proof.Machine

/-- Where an instruction writes `x[a]` and advances, a PRN of that register then emits the value written. -/
theorem exec_prn_of_written (s : State) (a : Byte) (v : Word) (n : Nat) (ha : a.toNat < Config.nregs) :
    exec (.prn a) (State.advance { s with regs := s.regs.set a.toNat v ha } n) =
      .next ((State.emit { s with regs := s.regs.set a.toNat v ha } v).advance (n + 2)) := by
  rw [exec_prn_of_lt _ a ha]
  simp only [State.advance_regs, Vector.getElem_set_self]
  rfl

/-- Settles O51, by running the two instructions. -/
theorem ldiThenPrnPrintsTheImmediate : Obligations.LdiThenPrnPrintsTheImmediate := by
  intro r v s hrun hr
  exact ⟨_, _, exec_ldi_of_lt s r v hr, exec_prn_of_written s r v 3 hr, rfl, rfl, hrun⟩

/-- Settles O52, by running the two instructions. -/
theorem arithmeticThenPrnPrintsTheResult : Obligations.ArithmeticThenPrnPrintsTheResult := by
  intro a b s ha hb _
  exact ⟨⟨_, _, exec_add_of_lt s a b ha hb, exec_prn_of_written s a _ 3 ha, rfl⟩,
    ⟨_, _, exec_mul_of_lt s a b ha hb, exec_prn_of_written s a _ 3 ha, rfl⟩⟩

/-- The E bit after a comparison says whether the values were equal. -/
theorem equalBit_compareFlag (va vb : Word) : equalBit (compareFlag va vb) = decide (va = vb) := by
  obtain ⟨h, e⟩ | ⟨h, e⟩ | ⟨h, e⟩ := compareFlag_cases va vb
  · rw [e, equalBit_flE, decide_eq_true h]
  all_goals
    have hne : va ≠ vb := by
      rintro rfl
      exact Nat.lt_irrefl _ h
    simp [e, hne]

/-- Settles O53: the comparison leaves in the E bit whether the registers are equal, and the jumps read it there. -/
theorem cmpDecidesTheConditionalJumps : Obligations.CmpDecidesTheConditionalJumps := by
  intro a b c s ha hb hc hrun
  obtain ⟨t, ht, hbit, hregs, htrun⟩ : ∃ t, exec (.cmp a b) s = .next t ∧
      equalBit t.fl = decide (s.regs[a.toNat] = s.regs[b.toNat]) ∧ t.regs = s.regs ∧ t.run = .running :=
    ⟨_, exec_cmp_of_lt s a b ha hb, equalBit_compareFlag _ _, rfl, hrun⟩
  have hjmp : exec (.jmp c) t = .next { t with pc := s.regs[c.toNat].toNat } := by
    rw [exec_jmp_of_lt t c hc, State.setPc]
    simp only [hregs]
  refine ⟨t, ht, htrun, fun heq => ?_, fun hne => ?_⟩
  · rw [decide_eq_true heq] at hbit
    exact ⟨(exec_jeq_of_equal t c hbit).trans hjmp, exec_jne_of_equal t c hbit⟩
  · rw [decide_eq_false hne] at hbit
    exact ⟨(exec_jne_of_not_equal t c hbit).trans hjmp, exec_jeq_of_not_equal t c hbit⟩

end Sys2Proof.Machine
end

section
/-! Which fault a step raises (spec/60_exceptions.md R156, R161): what the fetch and the instruction raise is what
`State.faultCause`, written without them, gives. -/

namespace Sys2Proof.Machine

variable {s t : State} {i : Instr} {r : Reason} {op a b : Byte}

/-! ### What an instruction raises -/

/-- The fault of the first register index out of range, in the order the registers are asked for (D9). -/
def registerFault : List Byte → Option Reason
  | [] => none
  | j :: js => if Config.nregs ≤ j.toNat then some (.outOfBounds (.register j)) else registerFault js

theorem registerFault_cons_of_le {j : Byte} {js : List Byte} (h : Config.nregs ≤ j.toNat) :
    registerFault (j :: js) = some (.outOfBounds (.register j)) := if_pos h

theorem registerFault_cons_of_lt {j : Byte} {js : List Byte} (h : j.toNat < Config.nregs) :
    registerFault (j :: js) = registerFault js := if_neg (Nat.not_le.mpr h)

theorem lt_of_registerFault_eq_none {js : List Byte} (h : registerFault js = none) :
    ∀ j ∈ js, j.toNat < Config.nregs := by
  induction js with
  | nil => simp
  | cons j js ih =>
    rcases Nat.lt_or_ge j.toNat Config.nregs with hj | hj
    · rw [registerFault_cons_of_lt hj] at h
      exact List.forall_mem_cons.mpr ⟨hj, ih h⟩
    · rw [registerFault_cons_of_le hj] at h
      cases h

/-- The fault a fetched instruction raises, if any: a byte that is not implemented raises itself, any other instruction the
first register out of range that it asks for. -/
def raisedBy (i : Instr) (fl : BitVec 3) : Option Reason :=
  match i with
  | .push | .pop | .call | .ret | .unknown _ => some (.unknownInstruction i.opcode)
  | _ => registerFault (askedRegisters i fl)

theorem raisedBy_eq_none {fl : BitVec 3} (h : raisedBy i fl = none) :
    i ∉ [Instr.push, .pop, .call, .ret, .unknown i.opcode] ∧ ∀ j ∈ askedRegisters i fl, j.toNat < Config.nregs := by
  cases i with
  | push | pop | call | ret | unknown => cases h
  | _ => exact ⟨by simp, lt_of_registerFault_eq_none h⟩

theorem raisedBy_undecodedByte (op : Byte) (fl : BitVec 3) :
    raisedBy (undecodedByte op) fl = some (.unknownInstruction op) := by
  obtain ⟨rfl, hi⟩ | ⟨rfl, hi⟩ | ⟨rfl, hi⟩ | ⟨rfl, hi⟩ | ⟨-, hi⟩ := undecodedByte_cases op
  all_goals rw [hi]; rfl

theorem registerFault_one_eq_some (h : registerFault [a] = some r) :
    Config.nregs ≤ a.toNat ∧ r = .outOfBounds (.register a) := by
  rcases Nat.lt_or_ge a.toNat Config.nregs with ha | ha
  · rw [registerFault_cons_of_lt ha] at h
    cases h
  · rw [registerFault_cons_of_le ha] at h
    cases h
    exact ⟨ha, rfl⟩

theorem aluInstruction_of_registerFault (aluOp : AluOp) (h : registerFault [a, b] = some r) :
    aluInstruction aluOp a b s = .next (s.takeFault r) := by
  rcases Nat.lt_or_ge a.toNat Config.nregs with ha | ha
  · rw [registerFault_cons_of_lt ha] at h
    obtain ⟨hb, rfl⟩ := registerFault_one_eq_some h
    exact aluInstruction_of_le_second s a b aluOp ha hb
  · rw [registerFault_cons_of_le ha] at h
    cases h
    exact aluInstruction_of_le_first s a b aluOp ha

theorem exec_jmp_of_registerFault (h : registerFault [a] = some r) : exec (.jmp a) s = .next (s.takeFault r) := by
  obtain ⟨ha, rfl⟩ := registerFault_one_eq_some h
  exact exec_jmp_of_le s a ha

/-- An instruction that raises a fault enters it. -/
theorem exec_of_raisedBy (h : raisedBy i s.fl = some r) : exec i s = .next (s.takeFault r) := by
  cases i with
  | ldi a imm =>
    obtain ⟨ha, rfl⟩ := registerFault_one_eq_some h
    exact exec_ldi_of_le s a imm ha
  | prn a =>
    obtain ⟨ha, rfl⟩ := registerFault_one_eq_some h
    exact exec_prn_of_le s a ha
  | add a b => exact aluInstruction_of_registerFault .add h
  | mul a b => exact aluInstruction_of_registerFault .mul h
  | cmp a b => exact aluInstruction_of_registerFault .cmp h
  | jmp a => exact exec_jmp_of_registerFault h
  | jeq a =>
    cases he : equalBit s.fl with
    | true =>
      simp only [raisedBy, askedRegisters, he, if_true] at h
      exact (exec_jeq_of_equal s a he).trans (exec_jmp_of_registerFault h)
    | false => simp [raisedBy, askedRegisters, he, registerFault] at h
  | jne a =>
    cases he : equalBit s.fl with
    | true => simp [raisedBy, askedRegisters, he, registerFault] at h
    | false =>
      simp only [raisedBy, askedRegisters, he, Bool.false_eq_true, if_false] at h
      exact (exec_jne_of_not_equal s a he).trans (exec_jmp_of_registerFault h)
  | hlt => cases h
  | push | pop | call | ret | unknown => cases h; rfl

/-- An instruction that raises none halts, if it is HLT, or keeps the run state. -/
theorem exec_run_of_not_raised (hr : raisedBy i s.fl = none) (h : exec i s = .next t) :
    (i = .hlt ∧ t = s.halt) ∨ t.run = s.run := by
  obtain ⟨hnamed, hlt⟩ := raisedBy_eq_none hr
  obtain ⟨j, hj, hge, -⟩ | ⟨hi, -⟩ | hhalt | ⟨_, _, _, -, rfl⟩ | ⟨_, _, _, _, -, rfl⟩ | ⟨_, _, -, rfl⟩ |
    ⟨_, _, -, rfl⟩ | ⟨_, -, rfl⟩ := exec_cases h
  · exact absurd (hlt j hj) (Nat.not_lt.mpr hge)
  · exact absurd hi hnamed
  · exact .inl hhalt
  all_goals exact .inr rfl

/-! ### The priority list, against the fetch and the instruction -/

/-- The lists of the priority list are the operand counts of the opcode table. -/
theorem operands_of_lookupOpcode {form : OpForm} (h : lookupOpcode op = some form) :
    op ∈ Config.implementedOpcodes ∧ (1 ≤ operandsOfForm form → op ∈ oneOperandAtLeast) ∧
    (operandsOfForm form = 2 → op ∈ twoOperands) := by
  have hrows : ∀ row ∈ opTable, row.1 ∈ Config.implementedOpcodes ∧
      (1 ≤ operandsOfForm row.2 → row.1 ∈ oneOperandAtLeast) ∧ (operandsOfForm row.2 = 2 → row.1 ∈ twoOperands) := by
    decide
  exact hrows _ (mem_of_findRow h)

/-- Which read a fetch fails on: the opcode's, or the first operand byte that its row demands and that is missing. -/
theorem fetchInstr_error_cases (h : fetchInstr s = .error r) :
    s.memRead s.pc = .error r ∨
    ∃ op ∈ Config.implementedOpcodes, s.memRead s.pc = .ok op ∧
      ((op ∈ oneOperandAtLeast ∧ s.memRead (s.pc + 1) = .error r) ∨
       (op ∈ twoOperands ∧ (∃ a, s.memRead (s.pc + 1) = .ok a) ∧ s.memRead (s.pc + 2) = .error r)) := by
  simp only [fetchInstr, decodeWith, Nat.add_zero] at h
  split at h
  next e he => cases h; exact .inl he
  next op hop =>
    refine .inr ⟨op, ?_⟩
    split at h
    · cases h
    · cases h
    next f hrow =>
      obtain ⟨himp, hone, -⟩ := operands_of_lookupOpcode hrow
      split at h <;> cases h
      next ha => exact ⟨himp, hop, .inl ⟨hone (Nat.le_refl 1), ha⟩⟩
    case h_4 f hrow | h_5 f hrow =>
      obtain ⟨himp, hone, htwo⟩ := operands_of_lookupOpcode hrow
      split at h
      next ha => cases h; exact ⟨himp, hop, .inl ⟨hone (Nat.le_succ 1), ha⟩⟩
      next a ha =>
        split at h <;> cases h
        next hb => exact ⟨himp, hop, .inr ⟨htwo rfl, ⟨a, ha⟩, hb⟩⟩

/-- A fetch fails with the cause the priority list gives. -/
theorem faultCause_of_fetchInstr_error (h : fetchInstr s = .error r) : s.faultCause = some r := by
  obtain hpc | ⟨op, himp, hop, ⟨hone, ha⟩ | ⟨htwo, ⟨a, ha⟩, hb⟩⟩ := fetchInstr_error_cases h
  · obtain ⟨hge, rfl⟩ := State.memRead_eq_error s hpc
    simp only [State.faultCause, if_pos hge]
  · obtain ⟨hlt, rfl⟩ := State.memRead_eq_ok s hop
    obtain ⟨hge, rfl⟩ := State.memRead_eq_error s ha
    simp [State.faultCause, Nat.not_le.mpr hlt, himp, hone, hge]
  · obtain ⟨hlt, rfl⟩ := State.memRead_eq_ok s hop
    obtain ⟨hlt1, -⟩ := State.memRead_eq_ok s ha
    obtain ⟨hge, rfl⟩ := State.memRead_eq_error s hb
    simp [State.faultCause, Nat.not_le.mpr hlt, himp, Nat.not_le.mpr hlt1, htwo, hge]

/-- The registers that the matrix of R156 says an opcode asks for, with its two operand bytes in hand. -/
def listedRegisters (op : Byte) (fl : BitVec 3) (a b : Byte) : List Byte :=
  (if asksForFirst op fl then [a] else []) ++ (if secondIsRegister.contains op then [b] else [])

/-- With every byte of the instruction in memory, what is left of the priority list is the registers. -/
theorem faultCause_of_bytes_present (hop : s.memRead s.pc = .ok op) (himp : op ∈ Config.implementedOpcodes)
    (hone : op ∈ oneOperandAtLeast → s.pc + 1 < Config.memSize) (htwo : op ∈ twoOperands → s.pc + 2 < Config.memSize) :
    s.faultCause = registerFault (listedRegisters op s.fl (s.mem.read (s.pc + 1)) (s.mem.read (s.pc + 2))) := by
  obtain ⟨hlt, rfl⟩ := State.memRead_eq_ok s hop
  have hone' : ¬(oneOperandAtLeast.contains (s.mem.read s.pc) = true ∧ Config.memSize ≤ s.pc + 1) :=
    fun ⟨hmem, hge⟩ => Nat.not_lt.mpr hge (hone (List.contains_iff_mem.mp hmem))
  have htwo' : ¬(twoOperands.contains (s.mem.read s.pc) = true ∧ Config.memSize ≤ s.pc + 2) :=
    fun ⟨hmem, hge⟩ => Nat.not_lt.mpr hge (htwo (List.contains_iff_mem.mp hmem))
  simp only [State.faultCause, if_neg (Nat.not_le.mpr hlt), List.contains_iff_mem.mpr himp, Bool.not_true,
    Bool.false_eq_true, if_false, if_neg hone', if_neg htwo', listedRegisters]
  cases asksForFirst (s.mem.read s.pc) s.fl <;> cases secondIsRegister.contains (s.mem.read s.pc) <;>
    simp [registerFault]

theorem listedRegisters_jeq (fl : BitVec 3) (a b : Byte) :
    listedRegisters Config.opcJeq fl a b = askedRegisters (.jeq a) fl := by
  change (if equalBit fl then [a] else []) ++ [] = if equalBit fl then [a] else []
  rw [List.append_nil]

theorem listedRegisters_jne (fl : BitVec 3) (a b : Byte) :
    listedRegisters Config.opcJne fl a b = askedRegisters (.jne a) fl := by
  change (if !equalBit fl then [a] else []) ++ [] = if equalBit fl then [] else [a]
  cases equalBit fl <;> rfl

/-- An instruction that was fetched raises the cause the priority list gives, or none where the list gives none. -/
theorem faultCause_of_fetchInstr (h : fetchInstr s = .ok i) : s.faultCause = raisedBy i s.fl := by
  obtain ⟨op, hop, hi⟩ := fetch_cases h
  obtain ⟨hnot, rfl, -⟩ | ⟨rfl, rfl⟩ | ⟨a, ha, hrow⟩ | ⟨a, b, ha, hb, hrow⟩ := hi
  · obtain ⟨hlt, rfl⟩ := State.memRead_eq_ok s hop
    rw [raisedBy_undecodedByte]
    simp [State.faultCause, Nat.not_le.mpr hlt, hnot]
  · rw [faultCause_of_bytes_present hop (by decide) (fun hm => absurd hm (by decide))
      (fun hm => absurd hm (by decide))]
    rfl
  · obtain ⟨hlt, rfl⟩ := State.memRead_eq_ok s ha
    obtain ⟨rfl, rfl⟩ | ⟨rfl, rfl⟩ | ⟨rfl, rfl⟩ | ⟨rfl, rfl⟩ := hrow
    all_goals rw [faultCause_of_bytes_present hop (by decide) (fun _ => hlt) (fun hm => absurd hm (by decide))]
    · rfl
    · rfl
    · rw [listedRegisters_jeq]; rfl
    · rw [listedRegisters_jne]; rfl
  · obtain ⟨hlt, rfl⟩ := State.memRead_eq_ok s ha
    obtain ⟨hlt', rfl⟩ := State.memRead_eq_ok s hb
    obtain ⟨rfl, rfl⟩ | ⟨rfl, rfl⟩ | ⟨rfl, rfl⟩ | ⟨rfl, rfl⟩ := hrow
    all_goals rw [faultCause_of_bytes_present hop (by decide) (fun _ => hlt) (fun _ => hlt')]; rfl

/-! ### How a step ends -/

/-- How a step ends, by the priority list: with the cause it gives; else at a HLT, or running. -/
theorem step_ends (h : step s = .next t) :
    (∃ r, s.faultCause = some r ∧ t = s.takeFault r) ∨
    (s.faultCause = none ∧ ((s.memRead s.pc = .ok Config.opcHlt ∧ t = s.halt) ∨ t.run = .running)) := by
  obtain ⟨hrun, ⟨i, hfetch, hexec⟩ | ⟨r, hfetch, rfl⟩⟩ := step_cases h
  · rw [faultCause_of_fetchInstr hfetch]
    cases hr : raisedBy i s.fl with
    | some r =>
      rw [exec_of_raisedBy hr] at hexec
      exact .inl ⟨r, rfl, (Host.Outcome.next.inj hexec).symm⟩
    | none =>
      refine .inr ⟨rfl, ?_⟩
      obtain ⟨rfl, rfl⟩ | hkeep := exec_run_of_not_raised hr hexec
      · have hopcode := (holds_cons.mp (fetchInstr_eq_ok_iff.mp hfetch).2).1
        exact .inl ⟨hopcode, rfl⟩
      · exact .inr (hkeep.trans hrun)
  · exact .inl ⟨r, faultCause_of_fetchInstr_error hfetch, rfl⟩

/-- A step that faults enters the fault the priority list gives and changes nothing else (D10). -/
theorem step_faulted (h : step s = .next t) (ht : t.run = .faulted r) :
    s.faultCause = some r ∧ t = s.takeFault r := by
  obtain ⟨r', hcause, rfl⟩ | ⟨-, ⟨-, rfl⟩ | hrun⟩ := step_ends h
  · cases ht
    exact ⟨hcause, rfl⟩
  · cases ht
  · rw [ht] at hrun
    cases hrun

/-- A step that halts stands at a HLT and leaves everything but the run state. -/
theorem step_halted (h : step s = .next t) (ht : t.run = .halted) :
    s.memRead s.pc = .ok Config.opcHlt ∧ t = s.halt := by
  obtain ⟨r, -, rfl⟩ | ⟨-, hhalt | hrun⟩ := step_ends h
  · cases ht
  · exact hhalt
  · rw [ht] at hrun
    cases hrun

/-- Settles O38: a running state steps, and the step ends as the priority list says. -/
theorem stepFaultsByThePriorityList : Obligations.StepFaultsByThePriorityList := by
  intro s hrun
  obtain ⟨t, ht⟩ := runningStateAlwaysSteps.1 s hrun
  obtain ⟨r', hcause, rfl⟩ | ⟨hcause, hend⟩ := step_ends ht
  · refine ⟨fun r hr => ?_, fun hnone => ?_⟩
    · cases hcause.symm.trans hr
      exact ht
    · cases hcause.symm.trans hnone
  · refine ⟨fun r hr => ?_, fun _ => ⟨t, ht, ?_⟩⟩
    · cases hcause.symm.trans hr
    · obtain ⟨-, rfl⟩ | hkeep := hend
      · exact .inr rfl
      · exact .inl hkeep

/-- The run of the state after a step is justified, whatever the state before was: a fault and a halt leave `pc`, the flag and
memory, from which the cause is read. -/
theorem runJustified_of_step (h : step s = .next t) : t.runJustified := by
  unfold State.runJustified
  split
  case h_1 => trivial
  case h_2 ht =>
    obtain ⟨hopcode, rfl⟩ := step_halted h ht
    exact hopcode
  case h_3 r ht =>
    obtain ⟨hcause, rfl⟩ := step_faulted h ht
    exact hcause

/-- Settles O41: reset is running, and every step justifies the run it leads to. -/
theorem terminalStateNamesItsCause : Obligations.TerminalStateNamesItsCause :=
  ⟨trivial, fun _ _ _ h => runJustified_of_step h⟩

end Sys2Proof.Machine
end

section
/-! What an instruction leaves unchanged (spec/10_state.md sections 1 to 5), piece of state by piece of state. -/

namespace Sys2Proof.Machine

variable {s t : State} {i : Instr}

/-! ### The frame of each piece of state -/

/-- No instruction writes memory. -/
theorem exec_mem (h : exec i s = .next t) : t.mem = s.mem := by
  obtain ⟨_, _, _, rfl⟩ | ⟨_, rfl⟩ | ⟨_, rfl⟩ | ⟨_, _, _, _, rfl⟩ | ⟨_, _, _, _, _, rfl⟩ | ⟨_, _, _, rfl⟩ |
    ⟨_, _, _, rfl⟩ | ⟨_, _, rfl⟩ := exec_cases h <;> rfl

theorem State.memRead_congr (h : t.mem = s.mem) (addr : Nat) : t.memRead addr = s.memRead addr := by
  simp only [State.memRead, h]

/-- The register an instruction writes, if any. -/
def writtenRegister : Instr → Option Byte
  | .ldi a _ | .add a _ | .mul a _ => some a
  | _ => none

/-- Every register but the one written is unchanged. -/
theorem exec_regs_of_ne (h : exec i s = .next t) {k : Nat} (hk : k < Config.nregs)
    (hne : ∀ a, writtenRegister i = some a → k ≠ a.toNat) : t.regs[k] = s.regs[k] := by
  obtain ⟨_, _, _, rfl⟩ | ⟨_, rfl⟩ | ⟨_, rfl⟩ | ⟨a, ha, v, hi, rfl⟩ | ⟨_, _, _, _, _, rfl⟩ | ⟨_, _, _, rfl⟩ |
    ⟨_, _, _, rfl⟩ | ⟨_, _, rfl⟩ := exec_cases h
  case inr.inr.inr.inl =>
    have hwritten : writtenRegister i = some a := by
      obtain rfl | ⟨b, rfl | rfl⟩ := hi <;> rfl
    exact Vector.getElem_set_ne ha hk (hne a hwritten).symm
  all_goals rfl

theorem exec_regs_of_none (h : exec i s = .next t) (hi : writtenRegister i = none) (k : Nat) (hk : k < Config.nregs) :
    t.regs[k] = s.regs[k] :=
  exec_regs_of_ne h hk fun a ha => by rw [hi] at ha; cases ha

theorem exec_fl_of_ne_cmp (h : exec i s = .next t) (hi : ∀ a b, i ≠ .cmp a b) : t.fl = s.fl := by
  obtain hfl | ⟨⟨a, b, hcmp⟩, -⟩ := exec_fl_cases h
  · exact hfl
  · exact absurd hcmp (hi a b)

/-- The output is left, or a PRN appends the one register it names. -/
theorem exec_out_cases (h : exec i s = .next t) :
    t.out = s.out ∨ ∃ (a : Byte) (_ : a.toNat < Config.nregs), i = .prn a ∧ t.out = s.out ++ [s.regs[a.toNat]] := by
  obtain ⟨_, _, _, rfl⟩ | ⟨_, rfl⟩ | ⟨_, rfl⟩ | ⟨_, _, _, _, rfl⟩ | ⟨_, _, _, _, _, rfl⟩ | ⟨a, ha, hi, rfl⟩ |
    ⟨_, _, _, rfl⟩ | ⟨_, _, rfl⟩ := exec_cases h
  case inr.inr.inr.inr.inr.inl => exact .inr ⟨a, ha, hi, rfl⟩
  all_goals exact .inl rfl

theorem exec_out_of_ne_prn (h : exec i s = .next t) (hi : ∀ a, i ≠ .prn a) : t.out = s.out := by
  obtain hout | ⟨a, -, hprn, -⟩ := exec_out_cases h
  · exact hout
  · exact absurd hprn (hi a)

/-- The forms that end the run: HLT, the reserved names, the unknown bytes. -/
def endsRun : Instr → Bool
  | .hlt | .push | .pop | .call | .ret | .unknown _ => true
  | _ => false

/-- A form that ends the run does nothing else. -/
theorem exec_of_endsRun (h : exec i s = .next t) (hi : endsRun i = true) : t = s.halt ∨ ∃ r, t = s.takeFault r := by
  cases i with
  | hlt => cases h; exact .inl rfl
  | push | pop | call | ret | unknown => cases h; exact .inr ⟨_, rfl⟩
  | _ => cases hi

/-- Every other form keeps the run state, or enters the fault of a register it asks for. -/
theorem exec_run_of_not_endsRun (h : exec i s = .next t) (hi : endsRun i = false) :
    t.run = s.run ∨ ∃ j ∈ askedRegisters i s.fl, t = s.takeFault (.outOfBounds (.register j)) := by
  obtain ⟨j, hj, -, rfl⟩ | ⟨hmem, -⟩ | ⟨rfl, -⟩ | ⟨_, _, _, _, rfl⟩ | ⟨_, _, _, _, _, rfl⟩ | ⟨_, _, _, rfl⟩ |
    ⟨_, _, _, rfl⟩ | ⟨_, _, rfl⟩ := exec_cases h
  · exact .inr ⟨j, hj, rfl⟩
  · have hends : ∀ op, ∀ i ∈ [Instr.push, .pop, .call, .ret, .unknown op], endsRun i = true := by simp [endsRun]
    rw [hends _ i hmem] at hi
    cases hi
  · cases hi
  all_goals exact .inl rfl

/-! ### The statements -/

/-- Settles O27, by the frame of each piece. -/
theorem registerWritersFrame : Obligations.RegisterWritersFrame := by
  intro a b i s t hi h
  obtain ⟨hwritten, hcmp, hprn, hends, hasked⟩ : writtenRegister i = some a ∧ (∀ c d, i ≠ .cmp c d) ∧ (∀ c, i ≠ .prn c) ∧
      endsRun i = false ∧ ∀ j ∈ askedRegisters i s.fl, j = a ∨ j = b := by
    obtain rfl | rfl | rfl := hi <;> simp [writtenRegister, endsRun, askedRegisters]
  refine ⟨fun k hk hne => exec_regs_of_ne h hk fun c hc => ?_, exec_fl_of_ne_cmp h hcmp, exec_out_of_ne_prn h hprn,
    State.memRead_congr (exec_mem h), ?_⟩
  · cases hwritten.symm.trans hc
    exact hne
  · obtain hrun | ⟨j, hj, rfl⟩ := exec_run_of_not_endsRun h hends
    · exact .inl hrun
    · exact .inr ⟨j, hasked j hj, rfl⟩

/-- Settles O28, by the frame of each piece. -/
theorem prnFrame : Obligations.PrnFrame := by
  intro a s t h
  refine ⟨exec_regs_of_none h rfl, exec_fl_of_ne_cmp h (by simp), ?_, State.memRead_congr (exec_mem h), ?_⟩
  · obtain hout | ⟨c, _, -, hout⟩ := exec_out_cases h
    · exact ⟨[], by rw [hout, List.append_nil]⟩
    · exact ⟨_, hout⟩
  · obtain hrun | ⟨j, hj, rfl⟩ := exec_run_of_not_endsRun h rfl
    · exact .inl hrun
    · cases List.mem_singleton.mp hj
      exact .inr rfl

/-- Settles O29, by the frame of each piece. -/
theorem cmpFrame : Obligations.CmpFrame := by
  intro a b s t h
  refine ⟨exec_regs_of_none h rfl, exec_out_of_ne_prn h (by simp), State.memRead_congr (exec_mem h), ?_⟩
  obtain hrun | ⟨j, hj, rfl⟩ := exec_run_of_not_endsRun h rfl
  · exact .inl hrun
  · exact .inr ⟨rfl, j, by simpa [askedRegisters] using hj, rfl⟩

/-- Settles O30, by the frame of each piece. -/
theorem jumpFrame : Obligations.JumpFrame := by
  intro a i s t hi h
  obtain ⟨hwritten, hcmp, hprn, hends, hasked⟩ : writtenRegister i = none ∧ (∀ c d, i ≠ .cmp c d) ∧ (∀ c, i ≠ .prn c) ∧
      endsRun i = false ∧ ∀ j ∈ askedRegisters i s.fl, j = a := by
    obtain rfl | rfl | rfl := hi <;> simp +contextual [writtenRegister, endsRun, askedRegisters]
  refine ⟨exec_regs_of_none h hwritten, exec_fl_of_ne_cmp h hcmp, exec_out_of_ne_prn h hprn,
    State.memRead_congr (exec_mem h), ?_⟩
  obtain hrun | ⟨j, hj, rfl⟩ := exec_run_of_not_endsRun h hends
  · exact .inl hrun
  · cases hasked j hj
    exact .inr rfl

/-- Settles O31: halting and fault entry change the run state alone. -/
theorem runEndersFrame : Obligations.RunEndersFrame := by
  intro op i s t hi h
  have hends : endsRun i = true := by
    obtain rfl | rfl | rfl | rfl | rfl | rfl := hi <;> rfl
  obtain rfl | ⟨r, rfl⟩ := exec_of_endsRun h hends
  all_goals exact ⟨fun _ _ => rfl, rfl, rfl, rfl, fun _ => rfl, by simp⟩

/-- Settles O35: neither the fetch nor an instruction writes memory. -/
theorem memoryIsConstantDuringARun : Obligations.MemoryIsConstantDuringARun := by
  intro s t h
  obtain ⟨-, ⟨i, -, hexec⟩ | ⟨r, -, rfl⟩⟩ := step_cases h
  · exact exec_mem hexec
  · rfl

/-- Settles O36: the instruction that appended was fetched as a PRN, whose two bytes stand at `pc`. -/
theorem outputGrowsByPrnAlone : Obligations.OutputGrowsByPrnAlone := by
  intro s t h
  obtain ⟨-, ⟨i, hfetch, hexec⟩ | ⟨r, -, rfl⟩⟩ := step_cases h
  · obtain hout | ⟨a, ha, rfl, hout⟩ := exec_out_cases hexec
    · exact .inl hout
    · obtain ⟨hop, hrest⟩ := holds_cons.mp (fetchInstr_eq_ok_iff.mp hfetch).2
      exact .inr ⟨a, ha, hop, (holds_cons.mp hrest).1, hout⟩
  · exact .inl rfl

end Sys2Proof.Machine
end

section
/-! How `pc` moves (spec/10_state.md section 2, spec/43_control_transfer.md section 2), and what every step keeps
(spec/10_state.md section 8). -/

namespace Sys2Proof.Machine

variable {s t : State} {i : Instr}

/-- The jumps that are taken: JMP always, JEQ with the E bit set, JNE with it clear. -/
def takenJump (i : Instr) (a : Byte) (fl : BitVec 3) : Prop :=
  i = .jmp a ∨ (i = .jeq a ∧ equalBit fl = true) ∨ (i = .jne a ∧ equalBit fl = false)

/-- The whole table of how an instruction changes `pc`: by its length, to the register of a taken jump, or not at all at the
end of the run. -/
theorem exec_pc_cases (h : exec i s = .next t) :
    (t.run = s.run ∧ t.pc = s.pc + i.size) ∨
    (∃ (a : Byte) (_ : a.toNat < Config.nregs), takenJump i a s.fl ∧ t.run = s.run ∧ t.pc = s.regs[a.toNat].toNat) ∨
    (t.run ≠ .running ∧ t.pc = s.pc) := by
  obtain ⟨_, _, _, rfl⟩ | ⟨_, rfl⟩ | ⟨_, rfl⟩ | ⟨_, _, _, hi, rfl⟩ | ⟨_, _, _, _, hi, rfl⟩ | ⟨_, _, hi, rfl⟩ |
    ⟨a, ha, hi, rfl⟩ | ⟨_, hi, rfl⟩ := exec_cases h
  · exact .inr (.inr ⟨by simp, rfl⟩)
  · exact .inr (.inr ⟨by simp, rfl⟩)
  · exact .inr (.inr ⟨by simp, rfl⟩)
  · obtain rfl | ⟨b, rfl | rfl⟩ := hi <;> exact .inl ⟨rfl, rfl⟩
  · subst hi
    exact .inl ⟨rfl, rfl⟩
  · subst hi
    exact .inl ⟨rfl, rfl⟩
  · exact .inr (.inl ⟨a, ha, hi, rfl, rfl⟩)
  · obtain ⟨rfl, -⟩ | ⟨rfl, -⟩ := hi <;> exact .inl ⟨rfl, rfl⟩

/-- Settles O21, from the table of `exec_pc_cases`. -/
theorem onlyJumpsDivertPc : Obligations.OnlyJumpsDivertPc := by
  intro i s t hrun h
  obtain ⟨hkeep, hpc⟩ | ⟨a, ha, hi, hkeep, hpc⟩ | ⟨hend, hpc⟩ := exec_pc_cases h
  · exact ⟨fun _ => .inl hpc, fun hnot => absurd (hkeep.trans hrun) hnot⟩
  · exact ⟨fun _ => .inr ⟨a, ha, hi, hpc⟩, fun hnot => absurd (hkeep.trans hrun) hnot⟩
  · exact ⟨fun hr => absurd hr hend, fun _ => hpc⟩

/-- Settles O23: one step leads back to the same state, so any number does, by induction on it. -/
theorem jumpToItselfRunsForever : Obligations.JumpToItselfRunsForever := by
  intro s a ha hrun hop hoperand htarget n
  have hstep : Sys2Proof.core.step s = .next s := by
    change step s = .next s
    rw [step_of_fetchInstr hrun (fetchInstr_of_op1R hop hoperand lookup_jmp), exec_jmp_of_lt s a ha, htarget]
    rfl
  induction n with
  | zero => rfl
  | succ n ih => simp only [Host.Core.run, hstep, ih]

theorem legalFlag_compareFlag (va vb : Word) : legalFlag (compareFlag va vb) := by
  obtain ⟨-, e⟩ | ⟨-, e⟩ | ⟨-, e⟩ := compareFlag_cases va vb
  · exact .inr (.inl e)
  · exact .inr (.inr (.inr e))
  · exact .inr (.inr (.inl e))

theorem exec_legalFlag (hlegal : legalFlag s.fl) (h : exec i s = .next t) : legalFlag t.fl := by
  obtain ⟨_, _, _, rfl⟩ | ⟨_, rfl⟩ | ⟨_, rfl⟩ | ⟨_, _, _, _, rfl⟩ | ⟨_, _, _, _, _, rfl⟩ | ⟨_, _, _, rfl⟩ |
    ⟨_, _, _, rfl⟩ | ⟨_, _, rfl⟩ := exec_cases h
  case inr.inr.inr.inr.inl => exact legalFlag_compareFlag _ _
  all_goals exact hlegal

/-- An instruction that was fetched leaves `pc` in 0..MEM_SIZE: its bytes were in memory, and a register holds less than
MEM_SIZE. -/
theorem exec_pc_le (hpc : s.pc ≤ Config.memSize) (hfetch : fetchInstr s = .ok i) (h : exec i s = .next t) :
    t.pc ≤ Config.memSize := by
  obtain ⟨-, hnext⟩ | ⟨a, ha, -, -, hnext⟩ | ⟨-, hnext⟩ := exec_pc_cases h
  · exact hnext ▸ pc_add_size_le_of_fetchInstr hfetch
  · exact hnext ▸ (s.regs[a.toNat].isLt).le
  · exact hnext ▸ hpc

/-- Settles O39, clause by clause of the invariant; a fault of the fetch changes none of its pieces. -/
theorem stepKeepsTheInvariant : Obligations.StepKeepsTheInvariant := by
  rintro s t ⟨hfl, hpc, hmem⟩ h
  obtain ⟨-, ⟨i, hfetch, hexec⟩ | ⟨r, -, rfl⟩⟩ := step_cases h
  · exact ⟨exec_legalFlag hfl hexec, exec_pc_le hpc hfetch hexec, (exec_mem hexec).symm ▸ hmem⟩
  · exact ⟨hfl, hpc, hmem⟩

/-- Settles O40, at the three values of reset. -/
theorem resetMeetsTheInvariant : Obligations.ResetMeetsTheInvariant :=
  ⟨.inl rfl, Nat.zero_le _, State.reset_mem_wf⟩

end Sys2Proof.Machine
end

section
/-! What an instruction reads (spec/10_state.md sections 2, 4 and 5): the registers and the flag alone. Run from two states that
agree on these, it makes the same change to both, whatever their `pc`, run state, memory and output hold. -/

namespace Sys2Proof.Machine

/-- From `s` to `t` and from `s'` to `t'` the same change is made: registers and flag come out equal, memory stays, the same
values are appended to the output, `pc` moves by the same distance or to the same target, and the run state is kept in both or
set to the same value. -/
structure SameChange (s t s' t' : State) : Prop where
  regs : t'.regs = t.regs
  fl : t'.fl = t.fl
  mem : t.mem = s.mem ∧ t'.mem = s'.mem
  out : ∃ more, t.out = s.out ++ more ∧ t'.out = s'.out ++ more
  pc : (∃ n, t.pc = s.pc + n ∧ t'.pc = s'.pc + n) ∨ t'.pc = t.pc
  run : (t.run = s.run ∧ t'.run = s'.run) ∨ t'.run = t.run

section
variable {s s' t t' : State}

theorem State.ext_fields (hregs : s.regs = t.regs) (hfl : s.fl = t.fl) (hpc : s.pc = t.pc) (hrun : s.run = t.run)
    (hmem : s.mem = t.mem) (hout : s.out = t.out) : s = t := by
  cases s
  cases t
  simp only at hregs hfl hpc hrun hmem hout
  simp only [hregs, hfl, hpc, hrun, hmem, hout]

/-! ### What starts equal ends equal -/

theorem SameChange.pc_eq (h : SameChange s t s' t') (hs : s'.pc = s.pc) : t'.pc = t.pc := by
  obtain ⟨n, hpc, hpc'⟩ | hpc := h.pc
  · rw [hpc', hs, hpc]
  · exact hpc

theorem SameChange.run_eq (h : SameChange s t s' t') (hs : s'.run = s.run) : t'.run = t.run := by
  obtain ⟨hrun, hrun'⟩ | hrun := h.run
  · rw [hrun', hs, hrun]
  · exact hrun

theorem SameChange.mem_eq (h : SameChange s t s' t') (hs : s'.mem = s.mem) : t'.mem = t.mem := by
  rw [h.mem.2, hs, h.mem.1]

/-- Values that stood before the output stay before it. -/
theorem SameChange.out_eq (h : SameChange s t s' t') {earlier : List Word} (hs : s'.out = earlier ++ s.out) :
    t'.out = earlier ++ t.out := by
  obtain ⟨more, hout, hout'⟩ := h.out
  rw [hout', hs, hout, List.append_assoc]

/-! ### The operations, on both states alike -/

theorem SameChange.start (hregs : s'.regs = s.regs) (hfl : s'.fl = s.fl) : SameChange s s s' s' where
  regs := hregs
  fl := hfl
  mem := ⟨rfl, rfl⟩
  out := ⟨[], by simp, by simp⟩
  pc := .inl ⟨0, rfl, rfl⟩
  run := .inl ⟨rfl, rfl⟩

theorem SameChange.setRegs (h : SameChange s t s' t') (regs : Vector Word Config.nregs) :
    SameChange s { t with regs := regs } s' { t' with regs := regs } :=
  { h with regs := rfl }

theorem SameChange.setFlag (h : SameChange s t s' t') (bits : BitVec 3) :
    SameChange s (t.setFlag bits) s' (t'.setFlag bits) :=
  { h with fl := rfl }

theorem SameChange.emit (h : SameChange s t s' t') (v : Word) : SameChange s (t.emit v) s' (t'.emit v) := by
  obtain ⟨more, hout, hout'⟩ := h.out
  exact { h with out := ⟨more ++ [v], by simp [hout], by simp [hout']⟩ }

theorem SameChange.setPc (h : SameChange s t s' t') (target : Nat) :
    SameChange s (t.setPc target) s' (t'.setPc target) :=
  { h with pc := .inr rfl }

theorem SameChange.advance (h : SameChange s t s' t') (n : Nat) : SameChange s (t.advance n) s' (t'.advance n) := by
  have hpc : (∃ m, t.pc + n = s.pc + m ∧ t'.pc + n = s'.pc + m) ∨ t'.pc + n = t.pc + n := by
    obtain ⟨m, hm, hm'⟩ | hm := h.pc
    · exact .inl ⟨m + n, by omega, by omega⟩
    · exact .inr (by omega)
  exact { h with pc := hpc }

theorem SameChange.halt (h : SameChange s t s' t') : SameChange s t.halt s' t'.halt :=
  { h with run := .inr rfl }

theorem SameChange.takeFault (h : SameChange s t s' t') (r : Reason) : SameChange s (t.takeFault r) s' (t'.takeFault r) :=
  { h with run := .inr rfl }

/-! ### The instructions -/

/-- Both states run to states that the same change was made to. -/
theorem SameChange.of_exec {i : Instr} {u u' : State} (h : exec i s = .next t) (hu : exec i s = .next u)
    (hu' : exec i s' = .next u') (hsame : SameChange s u s' u') : ∃ t', exec i s' = .next t' ∧ SameChange s t s' t' := by
  cases hu.symm.trans h
  exact ⟨u', hu', hsame⟩

theorem exec_jmp_sameChange {a : Byte} (hregs : s'.regs = s.regs) (hfl : s'.fl = s.fl) (ha : a.toNat < Config.nregs)
    (h : exec (.jmp a) s = .next t) : ∃ t', exec (.jmp a) s' = .next t' ∧ SameChange s t s' t' := by
  have hu' := exec_jmp_of_lt s' a ha
  rw [hregs] at hu'
  exact SameChange.of_exec h (exec_jmp_of_lt s a ha) hu' ((SameChange.start hregs hfl).setPc _)

/-- An instruction reads the registers and the flag alone. -/
theorem exec_sameChange {i : Instr} (hregs : s'.regs = s.regs) (hfl : s'.fl = s.fl) (h : exec i s = .next t) :
    ∃ t', exec i s' = .next t' ∧ SameChange s t s' t' := by
  have hstart := SameChange.start hregs hfl
  cases hr : raisedBy i s.fl with
  | some r => exact SameChange.of_exec h (exec_of_raisedBy hr) (exec_of_raisedBy (hfl ▸ hr)) (hstart.takeFault r)
  | none =>
    obtain ⟨hnamed, hlt⟩ := raisedBy_eq_none hr
    cases i with
    | ldi a imm =>
      have ha := hlt a (by simp [askedRegisters])
      have hu' := exec_ldi_of_lt s' a imm ha
      rw [hregs] at hu'
      exact SameChange.of_exec h (exec_ldi_of_lt s a imm ha) hu' ((hstart.setRegs _).advance 3)
    | prn a =>
      have ha := hlt a (by simp [askedRegisters])
      have hu' := exec_prn_of_lt s' a ha
      rw [hregs] at hu'
      exact SameChange.of_exec h (exec_prn_of_lt s a ha) hu' ((hstart.emit _).advance 2)
    | add a b =>
      have ha := hlt a (by simp [askedRegisters])
      have hb := hlt b (by simp [askedRegisters])
      have hu' := exec_add_of_lt s' a b ha hb
      rw [hregs] at hu'
      exact SameChange.of_exec h (exec_add_of_lt s a b ha hb) hu' ((hstart.setRegs _).advance 3)
    | mul a b =>
      have ha := hlt a (by simp [askedRegisters])
      have hb := hlt b (by simp [askedRegisters])
      have hu' := exec_mul_of_lt s' a b ha hb
      rw [hregs] at hu'
      exact SameChange.of_exec h (exec_mul_of_lt s a b ha hb) hu' ((hstart.setRegs _).advance 3)
    | cmp a b =>
      have ha := hlt a (by simp [askedRegisters])
      have hb := hlt b (by simp [askedRegisters])
      have hu' := exec_cmp_of_lt s' a b ha hb
      rw [hregs] at hu'
      exact SameChange.of_exec h (exec_cmp_of_lt s a b ha hb) hu' ((hstart.setFlag _).advance 3)
    | jmp a => exact exec_jmp_sameChange hregs hfl (hlt a (by simp [askedRegisters])) h
    | jeq a =>
      cases he : equalBit s.fl with
      | true =>
        rw [exec_jeq_of_equal s a he] at h
        rw [exec_jeq_of_equal s' a (hfl ▸ he)]
        exact exec_jmp_sameChange hregs hfl (hlt a (by simp [askedRegisters, he])) h
      | false =>
        exact SameChange.of_exec h (exec_jeq_of_not_equal s a he) (exec_jeq_of_not_equal s' a (hfl ▸ he)) (hstart.advance 2)
    | jne a =>
      cases he : equalBit s.fl with
      | true => exact SameChange.of_exec h (exec_jne_of_equal s a he) (exec_jne_of_equal s' a (hfl ▸ he)) (hstart.advance 2)
      | false =>
        rw [exec_jne_of_not_equal s a he] at h
        rw [exec_jne_of_not_equal s' a (hfl ▸ he)]
        exact exec_jmp_sameChange hregs hfl (hlt a (by simp [askedRegisters, he])) h
    | hlt => exact SameChange.of_exec h rfl rfl hstart.halt
    | push | pop | call | ret | unknown => exact absurd (by simp [Instr.opcode]) hnamed

end

/-! ### The statements -/

/-- Settles O34: from another `pc` the same change is made. -/
theorem pcIsNotReadAsData : Obligations.PcIsNotReadAsData := by
  intro i s t p h
  obtain ⟨u, hu, hsame⟩ := exec_sameChange (s := s) (s' := { s with pc := p }) rfl rfl h
  exact ⟨u, hu, State.ext_fields hsame.regs hsame.fl rfl (hsame.run_eq rfl) (hsame.mem_eq rfl)
    (hsame.out_eq (earlier := []) rfl)⟩

/-- Settles O33: the two ways to a terminal state by `step_halted` and `step_faulted`, that there is no way out of one, and
that from another run state the same change is made. -/
theorem runStateTransitions : Obligations.RunStateTransitions := by
  refine ⟨rfl, fun s t hrun => step_ne_next_of_not_running hrun t, fun s t h ht => (step_halted h ht).1,
    fun s t r h ht => (step_faulted h ht).2, fun i s t r h => ?_⟩
  obtain ⟨u, hu, hsame⟩ := exec_sameChange (s := s) (s' := { s with run := r }) rfl rfl h
  exact ⟨u, hu, State.ext_fields hsame.regs hsame.fl (hsame.pc_eq rfl) rfl (hsame.mem_eq rfl)
    (hsame.out_eq (earlier := []) rfl)⟩

/-- With other values emitted before, an instruction makes the same change. -/
theorem exec_after_output {i : Instr} {s t : State} (earlier : List Word) (h : exec i s = .next t) :
    exec i { s with out := earlier ++ s.out } = .next { t with out := earlier ++ t.out } := by
  obtain ⟨u, hu, hsame⟩ := exec_sameChange (s := s) (s' := { s with out := earlier ++ s.out }) rfl rfl h
  have hut : u = { t with out := earlier ++ t.out } :=
    State.ext_fields hsame.regs hsame.fl (hsame.pc_eq rfl) (hsame.run_eq rfl) (hsame.mem_eq rfl) (hsame.out_eq rfl)
  rw [hu, hut]

/-- Settles O37: the fetch reads memory, the instruction registers and flag. -/
theorem outputIsNeverReadBack : Obligations.OutputIsNeverReadBack := by
  intro s t earlier h
  obtain ⟨hrun, ⟨i, hfetch, hexec⟩ | ⟨r, hfetch, rfl⟩⟩ := step_cases h
  · exact (step_of_fetchInstr (s := { s with out := earlier ++ s.out }) hrun hfetch).trans
      (exec_after_output earlier hexec)
  · exact step_of_fetchInstr_error (s := { s with out := earlier ++ s.out }) hrun hfetch

end Sys2Proof.Machine
end

section
/-! Memory as a map from addresses to bytes (spec/20_memory.md section 1): a read after a write, and that a canonical memory is
determined by its reads. -/

namespace Sys2Proof.Machine

section
variable {m n : Memory} {addr other : Nat} {v : Byte}

theorem Memory.read_consCell_same (h : m.read addr = Config.memReset) :
    Memory.read (Memory.consCell addr v m) addr = v := by
  unfold Memory.consCell
  split
  · next hv => rw [h, hv]
  · simp

theorem Memory.read_consCell_ne (h : other ≠ addr) : Memory.read (Memory.consCell addr v m) other = m.read other := by
  unfold Memory.consCell
  split
  · rfl
  · simp [h.symm]

/-- Everything above an address: a cell there is not listed. -/
theorem Memory.read_of_all_above (h : ∀ c ∈ m, addr < c.1) : m.read addr = Config.memReset :=
  Memory.read_of_not_listed m addr fun c hc => (h c hc).ne'

theorem Memory.read_write_same (h : m.Pairwise (fun c d => c.1 < d.1)) : Memory.read (m.write addr v) addr = v := by
  induction m with
  | nil => exact Memory.read_consCell_same rfl
  | cons c m ih =>
    obtain ⟨habove, hm⟩ := List.pairwise_cons.mp h
    simp only [Memory.write]
    split
    next hlt => exact Memory.read_consCell_same (Memory.read_below c m addr h hlt)
    next hge =>
      split
      next heq => exact Memory.read_consCell_same (Memory.read_of_all_above fun d hd => heq ▸ habove d hd)
      next hne => rw [Memory.read_cons, if_neg (Ne.symm hne), ih hm]

theorem Memory.read_write_ne (h : other ≠ addr) : Memory.read (m.write addr v) other = m.read other := by
  induction m with
  | nil => exact Memory.read_consCell_ne h
  | cons c m ih =>
    simp only [Memory.write]
    split
    next => exact Memory.read_consCell_ne h
    next =>
      split
      next heq => rw [Memory.read_consCell_ne h, Memory.read_cons, if_neg (heq ▸ h.symm)]
      next => rw [Memory.read_cons, Memory.read_cons, ih]

/-- A listed cell of a memory with rising addresses is what its address reads as. -/
theorem Memory.read_of_mem {c : Host.Cell} (h : m.Pairwise (fun c d => c.1 < d.1)) (hc : c ∈ m) : m.read c.1 = c.2 := by
  induction m with
  | nil => cases hc
  | cons d m ih =>
    obtain ⟨habove, hm⟩ := List.pairwise_cons.mp h
    obtain rfl | hc := List.mem_cons.mp hc
    · rw [Memory.read_cons, if_pos rfl]
    · rw [Memory.read_cons, if_neg (habove c hc).ne, ih hm hc]

/-- An address that does not read as reset is listed, with what it reads as. -/
theorem Memory.mem_of_read (h : m.read addr ≠ Config.memReset) : (addr, m.read addr) ∈ m := by
  induction m with
  | nil => exact absurd rfl h
  | cons d m ih =>
    rw [Memory.read_cons] at h ⊢
    split at h
    next heq => rw [if_pos heq, ← heq]; exact List.mem_cons_self
    next hne => rw [if_neg hne]; exact List.mem_cons_of_mem _ (ih h)

/-- The cells of a canonical memory are the addresses in range that do not read as reset. -/
theorem Memory.mem_iff_read (h : m.wf) (c : Host.Cell) :
    c ∈ m ↔ c.1 < Config.memSize ∧ c.2 ≠ Config.memReset ∧ m.read c.1 = c.2 := by
  obtain ⟨hrising, hcells⟩ := h
  refine ⟨fun hc => ?_, fun ⟨_, hv, hread⟩ => ?_⟩
  · obtain ⟨hlt, hv⟩ := hcells c hc
    exact ⟨hlt, hv, Memory.read_of_mem hrising hc⟩
  · have hmem : (c.1, m.read c.1) ∈ m := Memory.mem_of_read (hread ▸ hv)
    rwa [hread] at hmem

theorem Memory.eq_of_reads (hm : m.wf) (hn : n.wf) (h : ∀ addr < Config.memSize, m.read addr = n.read addr) : m = n := by
  have hcells : ∀ c, c ∈ m ↔ c ∈ n := fun c => by
    rw [Memory.mem_iff_read hm, Memory.mem_iff_read hn]
    exact and_congr_right fun hlt => by rw [h c.1 hlt]
  have hperm : m.Perm n := (List.perm_ext_iff_of_nodup (hm.1.imp fun hlt => ?_) (hn.1.imp fun hlt => ?_)).mpr hcells
  · exact hperm.eq_of_pairwise (fun _ _ _ _ h1 h2 => absurd h1 (Nat.lt_asymm h2)) hm.1 hn.1
  all_goals
    rintro rfl
    exact Nat.lt_irrefl _ hlt

end

variable {s t : State}

theorem State.memWrite_of_lt (s : State) (addr : Nat) (v : Byte) (h : addr < Config.memSize) :
    s.memWrite addr v = .ok { s with mem := s.mem.write addr v } := by
  simp only [State.memWrite, if_pos h]

/-- Settles O43, by the reads of a written memory. -/
theorem memoryReadAfterWrite : Obligations.MemoryReadAfterWrite := by
  intro s addr v hwf
  refine ⟨fun ha => ⟨_, s.memWrite_of_lt addr v ha, ?_, fun other hne => ?_, rfl⟩,
    fun ha => ⟨s.memRead_of_le addr ha, s.memWrite_of_le addr v ha⟩⟩
  · rw [State.memRead_of_lt _ addr ha, Memory.read_write_same hwf.1]
  · simp only [State.memRead, Memory.read_write_ne hne]

/-- Settles O44: canonical memories that read alike list the same cells, in the same order. -/
theorem equalReadsMakeEqualMemories : Obligations.EqualReadsMakeEqualMemories :=
  fun _ _ hm hn h => Memory.eq_of_reads hm hn h

end Sys2Proof.Machine
end

section
/-! Reset and launch (spec/70_reset_and_hazards.md sections 1 and 2). -/

namespace Sys2Proof.Machine

variable {s t : State}

/-- Settles O46, at the reset values. -/
theorem resetRestoresEveryPieceOfState : Obligations.ResetRestoresEveryPieceOfState := by
  intro s
  refine ⟨fun k hk => Vector.getElem_replicate hk, rfl, rfl, rfl, fun addr ha => ?_, rfl⟩
  rw [State.memRead_of_lt _ addr ha]
  rfl

/-- The loader places an image that fits: each byte at its address from `k` on, every other cell as before. -/
theorem loadFrom_of_le {img : List Byte} {k : Nat} (hwf : s.mem.wf) (hfit : k + img.length ≤ Config.memSize) :
    ∃ t, loadFrom k img s = .ok t ∧ ∀ addr, t.mem.read addr =
      if addr < k then s.mem.read addr else img.getD (addr - k) (s.mem.read addr) := by
  induction img generalizing k s with
  | nil => exact ⟨s, rfl, fun addr => by simp⟩
  | cons b rest ih =>
    rw [List.length_cons] at hfit
    have hk : k < Config.memSize := by omega
    have hwrite := s.memWrite_of_lt k b hk
    obtain ⟨t, ht, hreads⟩ := ih (k := k + 1) (State.memWrite_wf _ _ _ _ hwf hwrite) (by omega)
    refine ⟨t, by simp only [loadFrom, hwrite, ht], fun addr => ?_⟩
    rw [hreads addr]
    obtain hlt | rfl | hgt := Nat.lt_trichotomy addr k
    · rw [if_pos (by omega), if_pos hlt, Memory.read_write_ne hlt.ne]
    · rw [if_pos (Nat.lt_succ_self addr), if_neg (Nat.lt_irrefl addr), Nat.sub_self, Memory.read_write_same hwf.1]
      rfl
    · rw [if_neg (by omega), if_neg (by omega), Memory.read_write_ne hgt.ne', show addr - k = addr - (k + 1) + 1 by omega]
      rfl

/-- An image that does not fit is the loader's error at the first address beyond memory. -/
theorem loadFrom_of_gt {img : List Byte} {k : Nat} (hk : k ≤ Config.memSize)
    (hlong : Config.memSize < k + img.length) :
    loadFrom k img s = .error (.outOfBounds (.memory Config.memSize)) := by
  induction img generalizing k s with
  | nil => exact absurd hk (Nat.not_le.mpr hlong)
  | cons b rest ih =>
    rw [List.length_cons] at hlong
    obtain hlt | rfl := Nat.lt_or_eq_of_le hk
    · simp only [loadFrom, s.memWrite_of_lt k b hlt]
      exact ih hlt (by omega)
    · simp only [loadFrom, s.memWrite_of_le _ b le_rfl]

theorem launch_frame {img : List Byte} (h : launch img = .ok s) : s = { State.reset with mem := s.mem } :=
  loadFrom_frame h

/-- Settles O48: the loader on reset's empty memory, from address 0. -/
theorem launchPlacesTheImage : Obligations.LaunchPlacesTheImage := by
  intro img
  refine ⟨fun hfit => ?_, fun hlong => ?_⟩
  · obtain ⟨s, hs, hreads⟩ := loadFrom_of_le (img := img) (k := 0) State.reset_mem_wf ((Nat.zero_add _).trans_le hfit)
    refine ⟨s, hs, fun addr ha => ?_, ?_⟩
    · rw [State.memRead_of_lt _ addr ha, hreads addr]
      rfl
    · rw [launch_frame hs]
      rfl
  · exact loadFrom_of_gt (Nat.zero_le _) (hlong.trans_eq (Nat.zero_add _).symm)

/-- Settles O49: launch differs from reset in memory alone, which it keeps canonical. -/
theorem launchMeetsTheInvariant : Obligations.LaunchMeetsTheInvariant := by
  intro img s h
  have hmem : s.mem.wf := loadFrom_wf img 0 State.reset s State.reset_mem_wf h
  obtain ⟨hfl, hpc, -⟩ := resetMeetsTheInvariant
  rw [launch_frame h]
  exact ⟨⟨hfl, hpc, hmem⟩, trivial⟩

end Sys2Proof.Machine
end

section
/-! The line of a printed value (spec/70_reset_and_hazards.md R188). -/

namespace Sys2Proof.Machine

/-- A decimal that starts with 0 is the one digit 0, by induction on the number divided by ten. -/
theorem toDigits_of_head_zero (n : Nat) (h : (Nat.toDigits 10 n).head? = some '0') : n = 0 := by
  induction n using Nat.strongRecOn with
  | _ n ih =>
    rcases Nat.lt_or_ge n 10 with hn | hn
    · rw [Nat.toDigits_of_lt_base hn] at h
      simpa using h
    · rw [Nat.toDigits_of_base_le (by decide) hn, List.head?_append_of_ne_nil _ Nat.toDigits_ne_nil] at h
      have := ih (n / 10) (by omega) h
      omega

/-- Settles O50, by the library's lemmas about `Nat.toDigits`. -/
theorem renderedLineIsShortestDecimal : Obligations.RenderedLineIsShortestDecimal := by
  intro v
  refine ⟨Nat.toDigits_ne_nil, Nat.ofDigitChars_ten_toDigits, List.all_eq_true.mpr fun c hc => ?_, fun h => ?_⟩
  · exact Nat.isDigit_of_mem_toDigits (by decide) (by decide) hc
  · rw [renderLine, toDigits_of_head_zero _ h, Nat.toDigits_zero]

end Sys2Proof.Machine
end
